-- ==== Sys2Proof/Word.lean ====
section
/-! DEFINITION. The one machine word of CORE: the byte (rules R11, R22, R29, R42: registers, memory cells, operand
bytes and immediates are unsigned values 0 to 255; no value spans two bytes). -/

namespace Sys2Proof

/-- An 8-bit unsigned value (rules R10, R11). -/
abbrev Byte := BitVec 8

end Sys2Proof
end

