-- ==== Sys2Proof/Config.lean ====
section
/-! DEFINITION. The parameters of rule R9 as named constants, the four error kinds of rule R201, and what the
spec leaves to the host: HOST_ERROR_EXIT_CODE (rule R213, decision D20) and the bytes of the console's newline (N15). -/

namespace Sys2Proof

/-- The error kinds CORE can raise (rules R200, R201). -/
inductive ErrorKind where
  | outOfBounds
  | unknownOpcode
  | invalidRegister
  | unsupportedAluOperation
deriving DecidableEq, Repr

namespace Config

/-- `NREGS`: the number of general registers (rule R9). -/
abbrev nRegs : Nat := 8

/-- `MEMSIZE`: the number of memory cells (rule R9). -/
abbrev memSize : Nat := 256

/-- `PC_RESET`, the reset vector (rules R9, R231). -/
abbrev pcReset : Nat := 0

/-- `SP_RESET` (rules R9, R26). -/
abbrev spReset : Nat := 244

/-- The exit code the host's process gives for an error of CORE: OPEN in the spec (decision D20), so it has no value
here. Nothing of CORE reads it. Log entry 4. -/
opaque hostErrorExitCode : ErrorKind → Nat

/-- The console's newline: the spec names it and leaves its bytes to the host (N15, U11), so it has no value here. Log
entry 7. -/
opaque newline : String

end Config

end Sys2Proof
end

