-- ==== Sys2Proof/Syntax.lean ====
section
/-! DEFINITION. The 13 instructions of rule R64, one constructor per row of spec/opcode_table.json. An operand is the
operand BYTE: a register operand above 7 is a legal encoding whose execution raises InvalidRegister (rule R62), so the
syntax keeps the whole byte. -/

namespace Sys2Proof

/-- The instructions, with their operand bytes in encoding order (rules R60, R61). -/
inductive Instr where
  /-- `LDI Ra, imm` (rule R100). -/
  | ldi (a b : Byte)
  /-- `PRN Ra` (rule R101). -/
  | prn (a : Byte)
  /-- `MUL Ra, Rb` (rule R122). -/
  | mul (a b : Byte)
  /-- `ADD Ra, Rb` (rule R121). -/
  | add (a b : Byte)
  /-- `PUSH Ra` (rule R143). -/
  | push (a : Byte)
  /-- `POP Ra` (rule R144). -/
  | pop (a : Byte)
  /-- `CALL Ra` (rule R160). -/
  | call (a : Byte)
  /-- `RET` (rule R161). -/
  | ret
  /-- `CMP Ra, Rb` (rule R125). -/
  | cmp (a b : Byte)
  /-- `JEQ Ra` (rule R163). -/
  | jeq (a : Byte)
  /-- `JNE Ra` (rule R164). -/
  | jne (a : Byte)
  /-- `JMP Ra` (rule R162). -/
  | jmp (a : Byte)
  /-- `HLT` (rule R180). -/
  | hlt
deriving DecidableEq, Repr

/-- The register operand bytes of an instruction, operand A first (the table of rule R61). -/
def Instr.regOperands : Instr → List Byte
  | .ldi a _ => [a]
  | .prn a => [a]
  | .mul a b => [a, b]
  | .add a b => [a, b]
  | .push a => [a]
  | .pop a => [a]
  | .call a => [a]
  | .ret => []
  | .cmp a b => [a, b]
  | .jeq a => [a]
  | .jne a => [a]
  | .jmp a => [a]
  | .hlt => []

end Sys2Proof
end

