-- ==== Sys2Proof/WellFormed.lean ====
section
/-! DEFINITION. When an instruction is well formed: every register operand names one of R0 to R7 (rules R61, R62). An
ill-formed instruction still has its meaning: it raises InvalidRegister. -/

namespace Sys2Proof

/-- An operand byte names a register when its whole value is at most 7 (rule R62: no bits masked). -/
def namesRegister (k : Byte) : Bool := decide (k.toNat < Config.nRegs)

/-- Every register operand names a register. -/
def Instr.wellFormed (i : Instr) : Bool := i.regOperands.all namesRegister

end Sys2Proof
end

