-- ==== Sys2Proof/Decode.lean ====
section
/-! DEFINITION. The decoder (rules R64, R65: whole-byte lookup of the opcode, total on all 256 values), the encoder
written from the same map (rules R60, R61, R64, R70), instruction lengths (rule R69), the assembly spelling (rule R70),
and the reading of an opcode-table word. -/

namespace Sys2Proof

/-- Why bytes are no instruction. -/
inductive DecodeError where
  /-- The opcode byte is none of the 13 of rule R64 (rule R67). -/
  | unknownOpcode (op : Byte)
  /-- Fewer than the three bytes every fetch reads were given (rule R81); raised by `decodeBytes` only. -/
  | truncated
deriving DecidableEq, Repr

/-- The 13 opcode bytes of rule R64, in the order of its table. -/
def opcodeMap : List Byte :=
  [0x01, 0x11, 0x45, 0x46, 0x47, 0x50, 0x54, 0x55, 0x56, 0x82, 0xA0, 0xA2, 0xA7]

/-- The instruction whose opcode byte is `op` and whose following bytes are `a` and `b` (rules R64, R65). Bytes past
the instruction's length are ignored (rule R68). -/
def decode (op a b : Byte) : Except DecodeError Instr :=
  if op = 0x01 then .ok .hlt
  else if op = 0x11 then .ok .ret
  else if op = 0x45 then .ok (.push a)
  else if op = 0x46 then .ok (.pop a)
  else if op = 0x47 then .ok (.prn a)
  else if op = 0x50 then .ok (.call a)
  else if op = 0x54 then .ok (.jmp a)
  else if op = 0x55 then .ok (.jeq a)
  else if op = 0x56 then .ok (.jne a)
  else if op = 0x82 then .ok (.ldi a b)
  else if op = 0xA0 then .ok (.add a b)
  else if op = 0xA2 then .ok (.mul a b)
  else if op = 0xA7 then .ok (.cmp a b)
  else .error (.unknownOpcode op)

/-- Decoding from a list of bytes: the eager three-byte window at its head (rule R81). -/
def decodeBytes : List Byte → Except DecodeError Instr
  | op :: a :: b :: _ => decode op a b
  | _ => .error .truncated

/-- The bytes of an instruction: opcode, then the operand bytes it has, in order (rules R60, R64, R70). -/
def encode : Instr → List Byte
  | .hlt => [0x01]
  | .ret => [0x11]
  | .push a => [0x45, a]
  | .pop a => [0x46, a]
  | .prn a => [0x47, a]
  | .call a => [0x50, a]
  | .jmp a => [0x54, a]
  | .jeq a => [0x55, a]
  | .jne a => [0x56, a]
  | .ldi a b => [0x82, a, b]
  | .add a b => [0xA0, a, b]
  | .mul a b => [0xA2, a, b]
  | .cmp a b => [0xA7, a, b]

/-- The length in bytes (rule R69): F0 is 1, F1 is 2, F2 is 3. -/
def instrLength : Instr → Nat
  | .hlt => 1
  | .ret => 1
  | .push _ => 2
  | .pop _ => 2
  | .prn _ => 2
  | .call _ => 2
  | .jmp _ => 2
  | .jeq _ => 2
  | .jne _ => 2
  | .ldi _ _ => 3
  | .add _ _ => 3
  | .mul _ _ => 3
  | .cmp _ _ => 3

/-- `Rn` in assembly (rule R70). -/
def asmReg (k : Byte) : String := "R" ++ toString k.toNat

/-- The assembly spelling of an instruction (rule R70, decision D11). -/
def asm : Instr → String
  | .hlt => "HLT"
  | .ret => "RET"
  | .push a => "PUSH " ++ asmReg a
  | .pop a => "POP " ++ asmReg a
  | .prn a => "PRN " ++ asmReg a
  | .call a => "CALL " ++ asmReg a
  | .jmp a => "JMP " ++ asmReg a
  | .jeq a => "JEQ " ++ asmReg a
  | .jne a => "JNE " ++ asmReg a
  | .ldi a b => "LDI " ++ asmReg a ++ ", " ++ toString b.toNat
  | .add a b => "ADD " ++ asmReg a ++ ", " ++ asmReg b
  | .mul a b => "MUL " ++ asmReg a ++ ", " ++ asmReg b
  | .cmp a b => "CMP " ++ asmReg a ++ ", " ++ asmReg b

/-- The three bytes of an instruction given as a number of `nbits` bits, first byte least significant, every bit above
`nbits` zero (the numbering of spec/opcode_table.json). -/
def tableBytes (nbits w : Nat) : Byte × Byte × Byte :=
  let v := w % 2 ^ nbits
  (BitVec.ofNat 8 v, BitVec.ofNat 8 (v / 256), BitVec.ofNat 8 (v / 65536))

/-- What the decoder reads from such a number. -/
def decodeTableWord (nbits w : Nat) : Option Instr :=
  match tableBytes nbits w with
  | (op, a, b) => (decode op a b).toOption

end Sys2Proof
end

