-- ==== Sys2Proof/Machine/State.lean ====
section
/-! DEFINITION. The state of CORE, exactly the tuple of rule R20, as plain data; the reasons a step can stop; the state
after reset (rules R35, R230). -/

namespace Sys2Proof.Machine

/-- The ALU's operation select (rule R120). The spec gives ADD and MUL and says any other select raises
UnsupportedAluOperation; `other` stands for those. DESIGN CHOICE, log entry 3. -/
inductive AluSelect where
  | add
  | mul
  | other (code : Nat)
deriving DecidableEq, Repr

/-- An error with the info it records (rule R201). -/
inductive CoreError where
  /-- A memory access at an address outside 0 to 255; a whole number, since -1 can be formed (rule R44). -/
  | outOfBounds (addr : Int)
  /-- A fetched opcode byte that is none of the 13 (rule R83). -/
  | unknownOpcode (op : Byte)
  /-- A register operand byte above 7 (rule R62). -/
  | invalidRegister (k : Byte)
  /-- An ALU select other than ADD or MUL; no program reaches it (rule R203). -/
  | unsupportedAluOperation (f : AluSelect)
deriving DecidableEq, Repr

/-- The run state (rule R30). -/
inductive RunState where
  | running
  | halted
  | error
deriving DecidableEq, Repr

/-- The condition flags (rule R27): Equal, Greater-Than, Less-Than. -/
structure Flags where
  E : Bool
  G : Bool
  L : Bool
deriving DecidableEq, Repr

/-- The whole state of CORE (rule R20). -/
structure State where
  /-- General registers R0 to R7 (rules R21, R22). -/
  x : Vector Byte 8
  /-- Program counter, a whole number 0 to 256 (rule R25); the bound is part of `Inv`. -/
  pc : Nat
  /-- Stack pointer, a whole number 0 to 256, no general register (rules R24, R26); the bound is part of `Inv`. -/
  sp : Nat
  /-- Condition flags (rule R27). -/
  fl : Flags
  /-- Memory (rule R29): the cells that are not zero, by rising address; an unlisted address reads 0 (rule R35). -/
  mem : List Host.Cell
  /-- Run state (rule R30). -/
  run : RunState
  /-- Error record, empty unless `run` is `error` (rule R30). -/
  err : Option CoreError
  /-- The values PRN has emitted since reset, oldest first (rule R31). -/
  out : List Byte
deriving DecidableEq, Repr

/-- Why no step is taken. Log entry 1. -/
inductive Fault where
  /-- Raised by `step` when `run` is Halted: the state is final and no step leaves it (rules R30, R91, R182). Safe: the
  model says nothing of a step the spec does not take. -/
  | alreadyHalted
  /-- Raised by `step` when `run` is Error: the state is final and no step leaves it (rules R30, R91, R206). Safe, for
  the same reason. -/
  | alreadyInError
deriving DecidableEq, Repr

/-- Why an instruction has no meaning. -/
inductive Refusal where
  /-- Raised by no arm of `exec`: every instruction of the table has its meaning. Safe. -/
  | notModelled (mnemonic : String)
deriving DecidableEq, Repr

/-- The state after reset (rules R35, R230, R231): registers 0, pc 0, sp 244, no flag set, every memory cell 0,
Running, no error, nothing emitted. -/
def State.reset : State where
  x := Vector.replicate 8 0
  pc := Config.pcReset
  sp := Config.spReset
  fl := { E := false, G := false, L := false }
  mem := []
  run := .running
  err := none
  out := []

end Sys2Proof.Machine
end

