-- ==== Sys2Proof/Machine/Ops.lean ====
section
/-! DEFINITION. The named operations over memory, registers and the run state: the primitives of rule R12. Entering an
error (rule R204) is the one operation `raiseError`; a handler that raises commits nothing (rule R87), which `settle`
says once. -/

namespace Sys2Proof.Machine

/-! ## Memory as a list of cells -/

/-- What an address that no cell lists reads as: the reset content (rule R35). -/
def Memory.unlisted : Byte := 0

/-- The byte at an address. -/
def Memory.read : List Host.Cell → Nat → Byte
  | [], _ => Memory.unlisted
  | c :: rest, a => if c.1 = a then c.2 else Memory.read rest a

/-- Put a cell before the first cell of a higher or equal address. -/
def Memory.insert (c : Host.Cell) : List Host.Cell → List Host.Cell
  | [] => [c]
  | d :: rest => if d.1 < c.1 then d :: Memory.insert c rest else c :: d :: rest

/-- Set the byte at an address: the old cell is taken out, and the new one put in unless an unlisted address reads the
same. -/
def Memory.write (m : List Host.Cell) (a : Nat) (v : Byte) : List Host.Cell :=
  let others := m.filter (fun c => c.1 != a)
  if v = Memory.unlisted then others else Memory.insert (a, v) others

/-- The canonical form: addresses strictly rising, each below 256 (rule R29), no cell equal to what an unlisted address
reads as. -/
abbrev Memory.wf (m : List Host.Cell) : Prop :=
  m.Pairwise (fun c d => c.1 < d.1) ∧ ∀ c ∈ m, c.1 < Config.memSize ∧ c.2 ≠ Memory.unlisted

/-- An address of the memory (rule R40): 0 to 255. -/
abbrev inBounds (addr : Int) : Prop := 0 ≤ addr ∧ addr ≤ 255

/-- `MemRead(addr, 1)` (rule R40): the byte, or OutOfBounds; the address is exact (rule R43). -/
def memRead (addr : Int) (s : State) : Except CoreError Byte :=
  if inBounds addr then .ok (Memory.read s.mem addr.toNat) else .error (.outOfBounds addr)

/-- Set one cell of the state's memory. -/
def storeByte (a : Nat) (v : Byte) (s : State) : State := { s with mem := Memory.write s.mem a v }

/-- `MemWrite(addr, 1, v)` (rule R41): the one cell set, or OutOfBounds and nothing written. -/
def memWrite (addr : Int) (v : Byte) (s : State) : Except CoreError State :=
  if inBounds addr then .ok (storeByte addr.toNat v s) else .error (.outOfBounds addr)

/-! ## Registers, program counter, stack pointer, flags, output -/

/-- `x[r]` (rule R21). -/
def readReg (r : Fin 8) (s : State) : Byte := s.x[r.val]

/-- `x[r] <- v` (rule R21). -/
def writeReg (r : Fin 8) (v : Byte) (s : State) : State := { s with x := s.x.set r.val v }

/-- `pc <- target` (rules R25, R165). -/
def jumpTo (target : Byte) (s : State) : State := { s with pc := target.toNat }

/-- `pc <- pc + n`, exact, no wrap (rules R25, R85). -/
def advance (n : Nat) (s : State) : State := { s with pc := s.pc + n }

/-- `sp <- v` (rule R26). -/
def setSp (v : Nat) (s : State) : State := { s with sp := v }

/-- `fl <- f`, all three flags (rule R27). -/
def setFlags (f : Flags) (s : State) : State := { s with fl := f }

/-- `Emit(v)`: append to the output sequence (rule R31). -/
def emit (v : Byte) (s : State) : State := { s with out := s.out ++ [v] }

/-! ## Run state -/

/-- `halt` (rules R82, R180): run becomes Halted, nothing else changes. -/
def haltRun (s : State) : State := { s with run := .halted }

/-- Error entry (rule R204): run becomes Error and the record is filled; pc keeps the faulting instruction's address
and every other field its value. There is no return from it (rule R206). -/
def raiseError (e : CoreError) (s : State) : State := { s with run := .error, err := some e }

/-- The end of a handler that began in `s`: its new state, or the error entered from `s` itself, so that the handler's
earlier updates are discarded (rules R12, R87). -/
def settle (s : State) : Except CoreError State → Host.Outcome State Fault Refusal
  | .ok t => .next t
  | .error e => .next (raiseError e s)

/-- The kind of an error (rule R201). -/
def errorKind : CoreError → ErrorKind
  | .outOfBounds _ => .outOfBounds
  | .unknownOpcode _ => .unknownOpcode
  | .invalidRegister _ => .invalidRegister
  | .unsupportedAluOperation _ => .unsupportedAluOperation

/-- The numeric code of an error kind (rule R201, decision D8). -/
def errorCode : ErrorKind → Nat
  | .outOfBounds => 1
  | .unknownOpcode => 2
  | .invalidRegister => 3
  | .unsupportedAluOperation => 4

end Sys2Proof.Machine
end

