-- ==== Sys2Proof/Machine/Flags.lean ====
section
/-! DEFINITION. The condition-flag logic (rules R124, R125) and the packed view of FL (rule R27). -/

namespace Sys2Proof.Machine

/-- The flags of an unsigned comparison of `p` with `q` (rule R124). -/
def compareFlags (p q : Byte) : Flags where
  E := decide (p = q)
  G := decide (p.toNat > q.toNat)
  L := decide (p.toNat < q.toNat)

/-- `fl_byte = L*4 + G*2 + E*1` (rule R27, decision D4); no instruction reads it. -/
def flByte (f : Flags) : Byte := BitVec.ofNat 8 (f.L.toNat * 4 + f.G.toNat * 2 + f.E.toNat)

end Sys2Proof.Machine
end

