-- ==== Sys2Proof/Machine/Operands.lean ====
section
/-! DEFINITION. The two operand forms (rule R61): a register named by the whole operand byte, and the immediate. -/

namespace Sys2Proof.Machine

/-- `reg(k)` (rule R62): the index the byte names, or InvalidRegister; no bits are masked. -/
def reg (k : Byte) : Except CoreError (Fin 8) :=
  if h : k.toNat < Config.nRegs then .ok ⟨k.toNat, h⟩ else .error (.invalidRegister k)

/-- LDI's immediate (rule R63): the byte as it is, not extended, scaled or shifted. -/
def immediate (b : Byte) : Byte := b

end Sys2Proof.Machine
end

