-- ==== Sys2Proof/Machine/Alu.lean ====
section
/-! DEFINITION. The ALU (rule R120, decision D14: ADD and MUL through one unit) and the instructions ADD, MUL and CMP
(rules R121, R122, R125). -/

namespace Sys2Proof.Machine

/-- `ALU(f, p, q)` (rule R120): computed exactly, then taken modulo 256; any other select is an error. -/
def alu (f : AluSelect) (p q : Byte) : Except CoreError Byte :=
  match f with
  | .add => .ok (BitVec.ofNat 8 ((p.toNat + q.toNat) % 256))
  | .mul => .ok (BitVec.ofNat 8 ((p.toNat * q.toNat) % 256))
  | .other code => .error (.unsupportedAluOperation (.other code))

/-- The shape ADD and MUL share (rules R121, R122): operand A checked, then operand B, then the ALU's result to
register A. -/
def aluHandler (f : AluSelect) (a b : Byte) (s : State) : Except CoreError State := do
  let d ← reg a
  let r ← reg b
  let v ← alu f (readReg d s) (readReg r s)
  return advance 3 (writeReg d v s)

/-- ADD (rule R121). -/
def execAdd (a b : Byte) (s : State) : Host.Outcome State Fault Refusal := settle s (aluHandler .add a b s)

/-- MUL (rule R122). -/
def execMul (a b : Byte) (s : State) : Host.Outcome State Fault Refusal := settle s (aluHandler .mul a b s)

/-- CMP (rule R125): all three flags written, every time. -/
def execCmp (a b : Byte) (s : State) : Host.Outcome State Fault Refusal :=
  settle s (do
    let p ← reg a
    let q ← reg b
    return advance 3 (setFlags (compareFlags (readReg p s) (readReg q s)) s))

end Sys2Proof.Machine
end

