-- ==== Sys2Proof/Machine/Stack.lean ====
section
/-! DEFINITION. The stack controller (rules R140 to R142) and the instructions PUSH and POP (rules R143, R144). -/

namespace Sys2Proof.Machine

/-- The address a push stores to: `sp - 1`, exact, so -1 at `sp = 0` (rules R43, R141). -/
def pushAddr (s : State) : Int := (s.sp : Int) - 1

/-- `Push(v)` (rule R141): the write is checked first, so a fault changes nothing. -/
def push (v : Byte) (s : State) : Except CoreError State := do
  let t ← memWrite (pushAddr s) v s
  return setSp (s.sp - 1) t

/-- `Pop()` (rule R142): the byte at `sp` and the state with `sp` one higher; the cell is not cleared. -/
def pop (s : State) : Except CoreError (Byte × State) := do
  let v ← memRead (s.sp : Int) s
  return (v, setSp (s.sp + 1) s)

/-- PUSH (rule R143). -/
def execPush (a : Byte) (s : State) : Host.Outcome State Fault Refusal :=
  settle s (do
    let r ← reg a
    let t ← push (readReg r s) s
    return advance 2 t)

/-- POP (rule R144). -/
def execPop (a : Byte) (s : State) : Host.Outcome State Fault Refusal :=
  settle s (do
    let d ← reg a
    let (v, t) ← pop s
    return advance 2 (writeReg d v t))

end Sys2Proof.Machine
end

