-- ==== Sys2Proof/Machine/Control.lean ====
section
/-! DEFINITION. Control transfer: CALL, RET, JMP, JEQ and JNE (rules R160 to R165). -/

namespace Sys2Proof.Machine

/-- The byte CALL pushes: `pc + 2`, which fits a byte wherever the fetch of the CALL succeeded (rule R160). Log
entry 2. -/
def returnAddr (s : State) : Byte := BitVec.ofNat 8 (s.pc + 2)

/-- CALL (rule R160). -/
def execCall (a : Byte) (s : State) : Host.Outcome State Fault Refusal :=
  settle s (do
    let r ← reg a
    let t ← push (returnAddr s) s
    return jumpTo (readReg r s) t)

/-- RET (rule R161). -/
def execRet (s : State) : Host.Outcome State Fault Refusal :=
  settle s (do
    let (v, t) ← pop s
    return jumpTo v t)

/-- JMP (rule R162). -/
def execJmp (a : Byte) (s : State) : Host.Outcome State Fault Refusal :=
  settle s (do
    let r ← reg a
    return jumpTo (readReg r s) s)

/-- The shape JEQ and JNE share (rules R163, R164): the register is checked whether or not the branch is taken. -/
def branchHandler (taken : Bool) (a : Byte) (s : State) : Except CoreError State := do
  let r ← reg a
  return if taken then jumpTo (readReg r s) s else advance 2 s

/-- JEQ (rule R163): tests E alone. -/
def execJeq (a : Byte) (s : State) : Host.Outcome State Fault Refusal := settle s (branchHandler s.fl.E a s)

/-- JNE (rule R164, conflict C2): tests E alone, so it jumps at reset. -/
def execJne (a : Byte) (s : State) : Host.Outcome State Fault Refusal := settle s (branchHandler (!s.fl.E) a s)

end Sys2Proof.Machine
end

