-- ==== Sys2Proof/Machine/RegisterIo.lean ====
section
/-! DEFINITION. Register load and console output: LDI and PRN (rules R100, R101). -/

namespace Sys2Proof.Machine

/-- LDI (rule R100). -/
def execLdi (a b : Byte) (s : State) : Host.Outcome State Fault Refusal :=
  settle s (do
    let d ← reg a
    return advance 3 (writeReg d (immediate b) s))

/-- PRN (rule R101): the unsigned 8-bit value is appended to the output sequence. -/
def execPrn (a : Byte) (s : State) : Host.Outcome State Fault Refusal :=
  settle s (do
    let r ← reg a
    return advance 2 (emit (readReg r s) s))

end Sys2Proof.Machine
end

