-- ==== Sys2Proof/Machine/System.lean ====
section
/-! DEFINITION. The system instruction: HLT (rules R82, R180), the only one (rule R181). -/

namespace Sys2Proof.Machine

/-- HLT (rule R180): no operand checks, pc unchanged. -/
def execHlt (s : State) : Host.Outcome State Fault Refusal := .next (haltRun s)

end Sys2Proof.Machine
end

