-- ==== Sys2Proof/Machine/Fetch.lean ====
section
/-! DEFINITION. Fetch and decode (rules R81 to R83): the eager three-byte fetch (decision D2), then the lookup. -/

namespace Sys2Proof.Machine

/-- The three bytes a step reads first, in the order pc, pc+1, pc+2, whatever the opcode (rule R81). -/
def fetch (s : State) : Except CoreError (Byte × Byte × Byte) := do
  let op ← memRead (s.pc : Int) s
  let a ← memRead ((s.pc : Int) + 1) s
  let b ← memRead ((s.pc : Int) + 2) s
  return (op, a, b)

/-- The lookup of the fetched opcode (rules R82, R83): a miss is UnknownOpcode with the opcode byte. -/
def lookup (op a b : Byte) : Except CoreError Instr :=
  match decode op a b with
  | .ok i => .ok i
  | .error _ => .error (.unknownOpcode op)

/-- Fetch, then decode; the fetch's error comes first (rule R205). -/
def fetchDecode (s : State) : Except CoreError Instr := do
  let (op, a, b) ← fetch s
  lookup op a b

/-- The three bytes of an instruction stored where the next fetch reads, at the addresses that exist. -/
def placeAtPc (op a b : Byte) (s : State) : State :=
  if s.pc + 2 < Config.memSize then
    storeByte (s.pc + 2) b (storeByte (s.pc + 1) a (storeByte s.pc op s))
  else s

/-- The bytes of an opcode-table word placed there (log entry 5). -/
def placeTableWord (nbits w : Nat) (s : State) : State :=
  match tableBytes nbits w with
  | (op, a, b) => placeAtPc op a b s

end Sys2Proof.Machine
end

