-- ==== Sys2Proof/Machine/Engine.lean ====
section
/-! DEFINITION. The fetch-decode-execute engine: one step (rules R80, R86) and the run-state machine (rule R91). -/

namespace Sys2Proof.Machine

/-- The step (rule R86), taken in Running only. In Halted or Error no step is taken (rules R30, R91): a named fault,
DESIGN CHOICE, log entry 1. -/
def engineStep (s : State) : Host.Outcome State Fault Refusal :=
  match s.run with
  | .halted => .fault .alreadyHalted
  | .error => .fault .alreadyInError
  | .running =>
    match fetchDecode s with
    | .ok i => exec i s
    | .error e => .next (raiseError e s)

end Sys2Proof.Machine
end

