-- ==== Sys2Proof/Machine/Step.lean ====
section
/-! DEFINITION. The step the host runs, and the placing of one instruction before it. -/

namespace Sys2Proof.Machine

/-- One step of CORE (rule R86). -/
def step (s : State) : Host.Outcome State Fault Refusal := engineStep s

/-- `s` with an opcode-table word of `nbits` bits stored where `step` fetches its next instruction, the bits above
`nbits` zero. It stands for the host's load (rule R233). Log entry 5. -/
def State.withFetchWord (s : State) (nbits w : Nat) : State := placeTableWord nbits w s

end Sys2Proof.Machine
end

