-- ==== Sys2Proof/Machine/HostPort.lean ====
section
/-! DEFINITION. The host's side of rule R236: load, run, console, result and exit code, and the program file of rule
R71. The textual loader, the process and the CLI are outside CORE (rule R6); they are given here as far as the spec
describes them, and no rule of CORE reads them. -/

namespace Sys2Proof.Machine

/-- The bytes of a program written one after another from an address on, through the bounds-checked write (rules R233,
R234, R236): a byte past 255 fails with OutOfBounds. -/
def loadFrom (addr : Nat) : List Byte → State → Except CoreError State
  | [], s => .ok s
  | v :: rest, s => do
    let t ← memWrite (addr : Int) v s
    loadFrom (addr + 1) rest t

/-- Load a program at address 0 (rule R233). -/
def loadProgram (bytes : List Byte) (s : State) : Except CoreError State := loadFrom 0 bytes s

/-- Reset, then load (rules R230, R233). -/
def bootProgram (bytes : List Byte) : Except CoreError State := loadProgram bytes State.reset

/-- At most `n` steps of a run, ended where no step is taken (rules R88, R91). -/
def runFor : Nat → State → State
  | 0, s => s
  | n + 1, s =>
    match step s with
    | .next t => runFor n t
    | .fault _ => s
    | .refused _ => s

/-- What the host reads after a run (rule R236): the run state and the error record. -/
def runResult (s : State) : RunState × Option CoreError := (s.run, s.err)

/-- One emitted value as the console shows it (rules R31, R101): unsigned decimal digits, then a newline. Log entry
7. -/
def consoleLine (v : Byte) : String := toString v.toNat ++ Config.newline

/-- The console after a sequence of emitted values. -/
def consoleText : List Byte → String
  | [] => ""
  | v :: rest => consoleLine v ++ consoleText rest

/-- The exit code for an error (rule R213): 0 for an unknown opcode, the host's open parameter for the others. Log
entry 4. -/
def errorExitCode : ErrorKind → Nat
  | .unknownOpcode => 0
  | k => Config.hostErrorExitCode k

/-- The host's exit code at the end of a run (rule R213); none while the run goes on. -/
def exitCode (s : State) : Option Nat :=
  match s.run with
  | .running => none
  | .halted => some 0
  | .error => s.err.map (fun e => errorExitCode (errorKind e))

/-! ## The program file -/

/-- What a line of a program file is (rule R71). -/
inductive ProgramLine where
  /-- A blank or comment-only line. -/
  | skipped
  /-- An 8-character binary literal. -/
  | byte (v : Byte)
  /-- Anything else: the spec does not say what the loader does (N11), so it is refused (U9). -/
  | malformed
deriving DecidableEq, Repr

/-- The blank characters a line may end in. Log entry 6. -/
def isBlankChar (c : Char) : Bool := c == ' ' || c == '\t' || c == '\r'

/-- The value of a binary literal, most significant bit first (rule R10); none if a character is no binary digit. -/
def binaryValue : List Char → Nat → Option Nat
  | [], n => some n
  | c :: rest, n =>
    if c == '0' then binaryValue rest (2 * n)
    else if c == '1' then binaryValue rest (2 * n + 1)
    else none

/-- A line without its comment and the blanks before it (rule R71). -/
def lineText (line : List Char) : List Char :=
  (((line.takeWhile (· != '#')).reverse).dropWhile isBlankChar).reverse

/-- Read one line (rule R71). -/
def readLine (line : List Char) : ProgramLine :=
  let text := lineText line
  if text.isEmpty then .skipped
  else if text.length = 8 then
    match binaryValue text 0 with
    | some n => .byte (BitVec.ofNat 8 n)
    | none => .malformed
  else .malformed

/-- Why the host does not start a run. -/
inductive BootFailure where
  /-- The program file cannot be opened (rule R214). -/
  | fileNotFound
  /-- A line of the file is malformed; its number, counted from 0 (U9). -/
  | malformedLine (n : Nat)
  /-- The program is too long (rule R234). -/
  | loadFailed (e : CoreError)
deriving DecidableEq, Repr

/-- The bytes of a program file, or the number of its first malformed line. -/
def readLines : Nat → List (List Char) → Except BootFailure (List Byte)
  | _, [] => .ok []
  | n, line :: rest =>
    match readLine line with
    | .skipped => readLines (n + 1) rest
    | .byte v => (readLines (n + 1) rest).map (v :: ·)
    | .malformed => .error (.malformedLine n)

/-- Start from a program file, absent if it cannot be opened (rules R71, R214, R233, R234): the state the run starts
from, or why it does not start. Every line is read before the first byte is loaded, so a malformed line is reported
even where the program is also too long: the spec does not say which failure comes first, DESIGN CHOICE, log entry 10. -/
def bootFile (file : Option (List (List Char))) : Except BootFailure State :=
  match file with
  | none => .error .fileNotFound
  | some lines => do
    let bytes ← readLines 0 lines
    match bootProgram bytes with
    | .ok s => .ok s
    | .error e => .error (.loadFailed e)

/-- The exit code when no run starts (rules R213, R214): 2 for a missing file; the spec gives none for the others. -/
def bootExitCode : BootFailure → Option Nat
  | .fileNotFound => some 2
  | .malformedLine _ => none
  | .loadFailed _ => none

end Sys2Proof.Machine
end

