-- ==== Sys2Proof/Safety.lean ====
section
/-! DEFINITION. What claims speak of: the invariant of the reachable states, what a register may hold as an error
record, and the error a step reports first. -/

namespace Sys2Proof.Machine

/-- The error records a run can leave: the addresses of rule R44, the info ranges of rule R201, and no ALU error
(rule R203). -/
def CoreError.possible : CoreError → Bool
  | .outOfBounds addr => decide (addr = -1 ∨ addr = 256)
  | .unknownOpcode op => !opcodeMap.contains op
  | .invalidRegister k => !namesRegister k
  | .unsupportedAluOperation _ => false

/-- At most one flag is set (rule R28: none at reset, exactly one after a CMP). -/
def Flags.atMostOne (f : Flags) : Bool := !(f.E && f.G) && !(f.E && f.L) && !(f.G && f.L)

/-- What holds at reset and after every step. -/
structure State.Inv (s : State) : Prop where
  /-- Memory is canonical and lies in 0 to 255 (rule R29). -/
  mem_wf : Memory.wf s.mem
  /-- Rule R25. -/
  pc_le : s.pc ≤ 256
  /-- Rule R26. -/
  sp_le : s.sp ≤ 256
  /-- Rule R28. -/
  flags : s.fl.atMostOne = true
  /-- Rule R30: the record is filled exactly in Error. -/
  err_iff : s.err.isSome = true ↔ s.run = .error
  /-- Rules R44, R201, R203. -/
  err_possible : ∀ e, s.err = some e → e.possible = true

/-- The register operand bytes of the instruction with opcode `op` and following bytes `a` and `b`, in the order they
are checked (rules R61, R62, R205), written from the table of rule R202. -/
def checkedOperands (op a b : Byte) : List Byte :=
  if op = 0xA0 ∨ op = 0xA2 ∨ op = 0xA7 then [a, b]
  else if op = 0x11 ∨ op = 0x01 then []
  else [a]

/-- The stack error of opcode `op` at stack pointer `sp` (rule R202): pushes fail at 0, pops at 256. -/
def stackError (op : Byte) (sp : Nat) : Option CoreError :=
  if (op = 0x45 ∨ op = 0x50) ∧ sp = 0 then some (.outOfBounds (-1))
  else if (op = 0x46 ∨ op = 0x11) ∧ sp = 256 then some (.outOfBounds 256)
  else none

/-- The one error the step at `s` reports, if any: the first that applies in the order of rule R205. -/
def firstError (s : State) : Option CoreError :=
  if 254 ≤ s.pc then some (.outOfBounds 256)
  else
    let op := Memory.read s.mem s.pc
    let a := Memory.read s.mem (s.pc + 1)
    let b := Memory.read s.mem (s.pc + 2)
    if op = 0x01 then none
    else if op ∉ opcodeMap then some (.unknownOpcode op)
    else
      match (checkedOperands op a b).find? (fun k => !namesRegister k) with
      | some k => some (.invalidRegister k)
      | none => stackError op s.sp

end Sys2Proof.Machine
end

