-- ==== Sys2Proof/Certificates/Slice0/Obligations.lean ====
section
/-! DEFINITION. The statements for the provers, from the numbered rules of spec/. A statement whose rule the spec
itself marks "[derived: …]" says so and has basis 'derived' in OBLIGATIONS.json. Witnesses of every hypothesis stand in
Sys2Proof/Tests/Slice0.lean as theorems `wit_<Name>`. -/

open Sys2Proof Sys2Proof.Machine

/-! ## Encoding -/

/-- Decoding an encoded instruction, whatever bytes follow it, gives it back with both operand bytes at every value
(rules R60, R64, R68, R70). -/
def Obligations.DecodeOfEncodedInstruction : Prop :=
  ∀ (i : Instr) (tail : List Byte), 2 ≤ tail.length → decodeBytes (encode i ++ tail) = .ok i

/-- Where three bytes decode, the instruction's encoding is their first 1, 2 or 3 bytes (rules R60, R69). -/
def Obligations.EncodeOfDecodedBytes : Prop :=
  ∀ (op a b : Byte) (i : Instr), decode op a b = .ok i → encode i = [op, a, b].take (instrLength i)

/-- The pattern the spec derives from the opcode map (30_encoding.md §3, R66, marked derived there): bits 7 to 6 are
the operand count, bit 5 marks ADD, MUL and CMP, bit 4 marks CALL, RET, JMP, JEQ and JNE. -/
def Obligations.OpcodeBitsGiveLengthAndClass : Prop :=
  ∀ (op a b : Byte) (i : Instr), decode op a b = .ok i →
    instrLength i = 1 + op.toNat / 64 ∧
    (op.getLsbD 5 = true ↔ ∃ p q, i = .add p q ∨ i = .mul p q ∨ i = .cmp p q) ∧
    (op.getLsbD 4 = true ↔ i = .ret ∨ ∃ p, i = .call p ∨ i = .jmp p ∨ i = .jeq p ∨ i = .jne p)

/-- Rule R65: the decoder accepts exactly the 13 opcode bytes, and every other byte is refused by name. -/
def Obligations.DecodeAcceptsExactlyTheThirteenOpcodes : Prop :=
  ∀ op a b : Byte,
    (op ∈ ([0x01, 0x11, 0x45, 0x46, 0x47, 0x50, 0x54, 0x55, 0x56, 0x82, 0xA0, 0xA2, 0xA7] : List Byte) →
      ∃ i, decode op a b = .ok i) ∧
    (op ∉ ([0x01, 0x11, 0x45, 0x46, 0x47, 0x50, 0x54, 0x55, 0x56, 0x82, 0xA0, 0xA2, 0xA7] : List Byte) →
      decode op a b = .error (.unknownOpcode op))

/-- Rule R64: the instruction of each opcode byte of the map. -/
def Obligations.OpcodeMapDecodesAsWritten : Prop :=
  ∀ a b : Byte,
    decode 0b00000001 a b = .ok .hlt ∧ decode 0b00010001 a b = .ok .ret ∧
    decode 0b01000101 a b = .ok (.push a) ∧ decode 0b01000110 a b = .ok (.pop a) ∧
    decode 0b01000111 a b = .ok (.prn a) ∧ decode 0b01010000 a b = .ok (.call a) ∧
    decode 0b01010100 a b = .ok (.jmp a) ∧ decode 0b01010101 a b = .ok (.jeq a) ∧
    decode 0b01010110 a b = .ok (.jne a) ∧ decode 0b10000010 a b = .ok (.ldi a b) ∧
    decode 0b10100000 a b = .ok (.add a b) ∧ decode 0b10100010 a b = .ok (.mul a b) ∧
    decode 0b10100111 a b = .ok (.cmp a b)

/-- Rule R68: the values of the bytes past an instruction's length never affect what it is. -/
def Obligations.UnusedOperandBytesAreIgnored : Prop :=
  ∀ (op a b a' b' : Byte) (i : Instr), decode op a b = .ok i →
    (instrLength i = 1 → decode op a' b' = .ok i) ∧ (instrLength i = 2 → decode op a b' = .ok i)

/-! ## The step -/

/-- Rules R84, R86: where the three bytes at pc decode, the step of a Running machine is the meaning of the decoded
instruction at the same state; the model's step adds nothing around it. -/
def Obligations.StepRunsTheDecodedInstruction : Prop :=
  ∀ (s : State) (op a b : Byte) (i : Instr), s.run = .running →
    memRead (s.pc : Int) s = .ok op → memRead ((s.pc : Int) + 1) s = .ok a → memRead ((s.pc : Int) + 2) s = .ok b →
    decode op a b = .ok i → step s = exec i s

/-- Rule R81: the fetch reads the three bytes at pc, pc+1 and pc+2 where they are in memory; otherwise the first bad
address is 256 and the step raises OutOfBounds(256), whatever the opcode. -/
def Obligations.FetchReadsThreeBytesOrFaults : Prop :=
  ∀ s : State, s.run = .running →
    (s.pc ≤ 253 → ∃ op a b, fetch s = .ok (op, a, b) ∧ memRead (s.pc : Int) s = .ok op ∧
      memRead ((s.pc : Int) + 1) s = .ok a ∧ memRead ((s.pc : Int) + 2) s = .ok b) ∧
    (254 ≤ s.pc → s.pc ≤ 256 → step s = .next { s with run := .error, err := some (.outOfBounds 256) })

/-- Rule R82: an opcode byte 0x01 halts, with every other field as it was. -/
def Obligations.HltOpcodeHaltsTheRun : Prop :=
  ∀ s : State, s.run = .running → s.pc ≤ 253 → memRead (s.pc : Int) s = .ok 0x01 →
    step s = .next { s with run := .halted }

/-- Rules R67, R83: a fetched opcode byte outside the map raises UnknownOpcode with that byte, pc unchanged. -/
def Obligations.UnknownOpcodeEndsTheRun : Prop :=
  ∀ (s : State) (op : Byte), s.run = .running → s.pc ≤ 253 → memRead (s.pc : Int) s = .ok op →
    op ∉ ([0x01, 0x11, 0x45, 0x46, 0x47, 0x50, 0x54, 0x55, 0x56, 0x82, 0xA0, 0xA2, 0xA7] : List Byte) →
    step s = .next { s with run := .error, err := some (.unknownOpcode op) }

/-- In Halted and in Error no step is taken (rules R30, R91); that the model's step answers a named fault there is the
model's choice (log entry 1). -/
def Obligations.HaltedAndErrorTakeNoStep : Prop :=
  ∀ s : State, (s.run = .halted → step s = .fault .alreadyHalted) ∧ (s.run = .error → step s = .fault .alreadyInError)

/-- Each Running state has exactly one next state (R89, marked derived in the spec): no instruction, byte or register
value faults or is refused. No other state has one. -/
def Obligations.RunningStateHasExactlyOneNextState : Prop :=
  ∀ s : State, (s.run = .running → ∃! t, step s = .next t) ∧ (s.run ≠ .running → ¬ ∃ t, step s = .next t)

/-- Rule R205 (with rule R204 for what an error does): the step reports the first error in the order fetch, HLT,
UnknownOpcode, InvalidRegister A then B, stack access; `firstError` writes that order out. Where there is none the step
ends without an error. -/
def Obligations.StepReportsTheFirstErrorInOrder : Prop :=
  ∀ s : State, s.run = .running → s.pc ≤ 256 → s.sp ≤ 256 →
    ∃ t, step s = .next t ∧
      (∀ e, firstError s = some e → t = { s with run := .error, err := some e }) ∧
      (firstError s = none → t.run ≠ .error ∧ t.err = s.err)

/-- Rules R87, R204: a step that raises keeps the registers, pc, sp, flags, memory and output, and fills the error
record. -/
def Obligations.ErrorStepCommitsNothing : Prop :=
  ∀ s t : State, step s = .next t → t.run = .error →
    t.x = s.x ∧ t.pc = s.pc ∧ t.sp = s.sp ∧ t.fl = s.fl ∧ t.mem = s.mem ∧ t.out = s.out ∧ ∃ e, t.err = some e

/-- The next pc of every instruction (40_engine.md §1, the table of R85, marked derived in the spec). -/
def Obligations.NextProgramCounter : Prop :=
  ∀ (i : Instr) (s t : State), s.run ≠ .error → exec i s = .next t →
    t.pc = if t.run = .error then s.pc else
      match i with
      | .ldi _ _ => s.pc + 3
      | .add _ _ => s.pc + 3
      | .mul _ _ => s.pc + 3
      | .cmp _ _ => s.pc + 3
      | .prn _ => s.pc + 2
      | .push _ => s.pc + 2
      | .pop _ => s.pc + 2
      | .jeq a => if s.fl.E then (s.x[a.toNat]?.getD 0).toNat else s.pc + 2
      | .jne a => if s.fl.E then s.pc + 2 else (s.x[a.toNat]?.getD 0).toNat
      | .jmp a => (s.x[a.toNat]?.getD 0).toNat
      | .call a => (s.x[a.toNat]?.getD 0).toNat
      | .ret => (Memory.read s.mem s.sp).toNat
      | .hlt => s.pc

/-- Rule R91: reset is Running; a step starts from Running and ends in Running, in Halted exactly for HLT, or in Error
with the record filled; Halted and Error have no step. -/
def Obligations.RunStateTransitions : Prop :=
  State.reset.run = .running ∧
  ∀ s : State,
    (∀ t, step s = .next t → s.run = .running ∧
      (fetchDecode s = .ok .hlt → t.run = .halted) ∧
      ((t.run = .running ∧ t.err = s.err) ∨ (t.run = .halted ∧ t.err = s.err ∧ fetchDecode s = .ok .hlt) ∨
        (t.run = .error ∧ ∃ e, t.err = some e))) ∧
    (s.run ≠ .running → ∀ t, step s ≠ .next t)

/-! ## Memory -/

/-- Rule R40: the byte at an address 0 to 255, OutOfBounds elsewhere; a read changes no state (it answers only a
byte). -/
def Obligations.MemReadReturnsTheByteOrOutOfBounds : Prop :=
  ∀ (addr : Int) (s : State),
    (∀ n : Nat, addr = n → n ≤ 255 → memRead addr s = .ok (Memory.read s.mem n)) ∧
    (addr < 0 ∨ 255 < addr → memRead addr s = .error (.outOfBounds addr))

/-- Rule R41: a write inside 0 to 255 sets that one cell and changes nothing else; outside it is OutOfBounds. -/
def Obligations.MemWriteChangesOneByteOrOutOfBounds : Prop :=
  ∀ (addr : Int) (v : Byte) (s : State),
    (0 ≤ addr → addr ≤ 255 → ∃ t, memWrite addr v s = .ok t ∧ t = { s with mem := t.mem } ∧
      ∀ b : Int, memRead b t = if b = addr then .ok v else memRead b s) ∧
    (addr < 0 ∨ 255 < addr → memWrite addr v s = .error (.outOfBounds addr))

/-- The model's memory has one form for each content: two canonical memories that read the same at every address are the
same list (log entry 9). -/
def Obligations.CanonicalMemoriesThatReadAlikeAreEqual : Prop :=
  ∀ m m' : List Host.Cell, Memory.wf m → Memory.wf m' → (∀ a, Memory.read m a = Memory.read m' a) → m = m'

/-- A PUSH or CALL whose byte lands on the next instruction or its operands changes what the next step fetches
(20_memory.md §4, R55, marked derived in the spec). CALL's byte is the low 8 bits of `pc + 2`: at a pc above 253, which
no fetch reaches, that is the model's choice (log entry 2). -/
def Obligations.NextFetchSeesTheStore : Prop :=
  ∀ (i : Instr) (a v : Byte) (s : State), ∀ ha : a.toNat < 8, 1 ≤ s.sp → s.sp ≤ 256 →
    ((i = .push a ∧ v = s.x[a.toNat]) ∨ (i = .call a ∧ v = BitVec.ofNat 8 (s.pc + 2))) →
    ∃ t, exec i s = .next t ∧
      (t.pc ≤ 253 → ∃ op x y, fetch t = .ok (op, x, y) ∧
        (pushAddr s = t.pc → op = v) ∧ (pushAddr s = t.pc + 1 → x = v) ∧ (pushAddr s = t.pc + 2 → y = v))

/-! ## Register operands -/

/-- Rule R62: a byte up to 7 names that register; a byte above 7 raises InvalidRegister with the byte, for every
register operand of every instruction, read by that execution or not, and nothing else changes. -/
def Obligations.RegisterOperandsAreTheWholeByte : Prop :=
  (∀ k : Byte, ∀ h : k.toNat < 8, reg k = .ok ⟨k.toNat, h⟩) ∧
  (∀ k : Byte, 8 ≤ k.toNat → reg k = .error (.invalidRegister k)) ∧
  (∀ (i : Instr) (s : State) (k : Byte), i.regOperands.find? (fun b => decide (8 ≤ b.toNat)) = some k →
    exec i s = .next { s with run := .error, err := some (.invalidRegister k) })

/-! ## The instructions: what each does, and where it traps -/

/-- Rule R100: LDI. -/
def Obligations.LdiResult : Prop :=
  ∀ (a b : Byte) (s : State),
    encode (.ldi a b) = [0x82, a, b] ∧
    (∀ ha : a.toNat < 8, exec (.ldi a b) s = .next { s with x := s.x.set a.toNat b, pc := s.pc + 3 }) ∧
    (8 ≤ a.toNat → exec (.ldi a b) s = .next { s with run := .error, err := some (.invalidRegister a) })

/-- PRN (41_register_io.md, rule R101); the console then shows one more line, the unsigned decimal value and the line
end `Config.newline`, one fixed string of unknown bytes, which is the model's choice (log entry 7). -/
def Obligations.PrnResult : Prop :=
  ∀ (a : Byte) (s : State),
    encode (.prn a) = [0x47, a] ∧
    (∀ ha : a.toNat < 8, exec (.prn a) s = .next { s with out := s.out ++ [s.x[a.toNat]], pc := s.pc + 2 } ∧
      consoleText (s.out ++ [s.x[a.toNat]]) = consoleText s.out ++ (toString s.x[a.toNat].toNat ++ Config.newline)) ∧
    (8 ≤ a.toNat → exec (.prn a) s = .next { s with run := .error, err := some (.invalidRegister a) })

/-- Rule R121: ADD, modulo 256; operand A is checked before operand B; no flag is written. -/
def Obligations.AddResult : Prop :=
  ∀ (a b : Byte) (s : State),
    encode (.add a b) = [0xA0, a, b] ∧
    (∀ ha : a.toNat < 8, ∀ hb : b.toNat < 8, ∃ v : Byte,
      v.toNat = (s.x[a.toNat].toNat + s.x[b.toNat].toNat) % 256 ∧
      exec (.add a b) s = .next { s with x := s.x.set a.toNat v, pc := s.pc + 3 }) ∧
    (8 ≤ a.toNat → exec (.add a b) s = .next { s with run := .error, err := some (.invalidRegister a) }) ∧
    (a.toNat < 8 → 8 ≤ b.toNat → exec (.add a b) s = .next { s with run := .error, err := some (.invalidRegister b) })

/-- Rule R122: MUL, the low 8 bits of the product. -/
def Obligations.MulResult : Prop :=
  ∀ (a b : Byte) (s : State),
    encode (.mul a b) = [0xA2, a, b] ∧
    (∀ ha : a.toNat < 8, ∀ hb : b.toNat < 8, ∃ v : Byte,
      v.toNat = (s.x[a.toNat].toNat * s.x[b.toNat].toNat) % 256 ∧
      exec (.mul a b) s = .next { s with x := s.x.set a.toNat v, pc := s.pc + 3 }) ∧
    (8 ≤ a.toNat → exec (.mul a b) s = .next { s with run := .error, err := some (.invalidRegister a) }) ∧
    (a.toNat < 8 → 8 ≤ b.toNat → exec (.mul a b) s = .next { s with run := .error, err := some (.invalidRegister b) })

/-- Rule R125: CMP writes all three flags from the unsigned comparison, and nothing else but pc. -/
def Obligations.CmpResult : Prop :=
  ∀ (a b : Byte) (s : State),
    encode (.cmp a b) = [0xA7, a, b] ∧
    (∀ ha : a.toNat < 8, ∀ hb : b.toNat < 8, ∃ f : Flags,
      (f.E = true ↔ s.x[a.toNat].toNat = s.x[b.toNat].toNat) ∧
      (f.G = true ↔ s.x[a.toNat].toNat > s.x[b.toNat].toNat) ∧
      (f.L = true ↔ s.x[a.toNat].toNat < s.x[b.toNat].toNat) ∧
      exec (.cmp a b) s = .next { s with fl := f, pc := s.pc + 3 }) ∧
    (8 ≤ a.toNat → exec (.cmp a b) s = .next { s with run := .error, err := some (.invalidRegister a) }) ∧
    (a.toNat < 8 → 8 ≤ b.toNat → exec (.cmp a b) s = .next { s with run := .error, err := some (.invalidRegister b) })

/-- Rules R141, R143: PUSH stores the register at `sp - 1`, changes no other byte, and lowers sp. -/
def Obligations.PushResult : Prop :=
  ∀ (a : Byte) (s : State),
    encode (.push a) = [0x45, a] ∧
    (∀ ha : a.toNat < 8, 1 ≤ s.sp → s.sp ≤ 256 →
      ∃ t, exec (.push a) s = .next t ∧ t = { s with mem := t.mem, sp := s.sp - 1, pc := s.pc + 2 } ∧
        pushAddr s = (s.sp : Int) - 1 ∧
        ∀ addr : Int, memRead addr t = if addr = pushAddr s then .ok s.x[a.toNat] else memRead addr s) ∧
    (8 ≤ a.toNat → exec (.push a) s = .next { s with run := .error, err := some (.invalidRegister a) }) ∧
    (a.toNat < 8 → s.sp = 0 → exec (.push a) s = .next { s with run := .error, err := some (.outOfBounds (-1)) })

/-- Rules R142, R144: POP reads the byte at sp into the register and raises sp; memory is not changed. -/
def Obligations.PopResult : Prop :=
  ∀ (a : Byte) (s : State),
    encode (.pop a) = [0x46, a] ∧
    (∀ ha : a.toNat < 8, s.sp ≤ 255 → ∃ v : Byte, memRead (s.sp : Int) s = .ok v ∧
      exec (.pop a) s = .next { s with x := s.x.set a.toNat v, sp := s.sp + 1, pc := s.pc + 2 }) ∧
    (8 ≤ a.toNat → exec (.pop a) s = .next { s with run := .error, err := some (.invalidRegister a) }) ∧
    (a.toNat < 8 → s.sp = 256 → exec (.pop a) s = .next { s with run := .error, err := some (.outOfBounds 256) })

/-- Rule R160: CALL stores the return address `pc + 2` at `sp - 1` and jumps to the register. `pc ≤ 253` is the
success of the CALL's fetch, which makes `pc + 2` a byte. -/
def Obligations.CallResult : Prop :=
  ∀ (a : Byte) (s : State),
    encode (.call a) = [0x50, a] ∧
    (∀ ha : a.toNat < 8, s.pc ≤ 253 → 1 ≤ s.sp → s.sp ≤ 256 →
      ∃ t, ∃ v : Byte, v.toNat = s.pc + 2 ∧ exec (.call a) s = .next t ∧
        t = { s with mem := t.mem, sp := s.sp - 1, pc := s.x[a.toNat].toNat } ∧
        pushAddr s = (s.sp : Int) - 1 ∧
        ∀ addr : Int, memRead addr t = if addr = pushAddr s then .ok v else memRead addr s) ∧
    (8 ≤ a.toNat → exec (.call a) s = .next { s with run := .error, err := some (.invalidRegister a) }) ∧
    (a.toNat < 8 → s.sp = 0 → exec (.call a) s = .next { s with run := .error, err := some (.outOfBounds (-1)) })

/-- Rule R161: RET. -/
def Obligations.RetResult : Prop :=
  ∀ s : State,
    encode .ret = [0x11] ∧
    (s.sp ≤ 255 → ∃ v : Byte, memRead (s.sp : Int) s = .ok v ∧
      exec .ret s = .next { s with pc := v.toNat, sp := s.sp + 1 }) ∧
    (s.sp = 256 → exec .ret s = .next { s with run := .error, err := some (.outOfBounds 256) })

/-- Rule R162: JMP. -/
def Obligations.JmpResult : Prop :=
  ∀ (a : Byte) (s : State),
    encode (.jmp a) = [0x54, a] ∧
    (∀ ha : a.toNat < 8, exec (.jmp a) s = .next { s with pc := s.x[a.toNat].toNat }) ∧
    (8 ≤ a.toNat → exec (.jmp a) s = .next { s with run := .error, err := some (.invalidRegister a) })

/-- Rule R163: JEQ tests E alone; the register is checked taken or not. -/
def Obligations.JeqResult : Prop :=
  ∀ (a : Byte) (s : State),
    encode (.jeq a) = [0x55, a] ∧
    (∀ ha : a.toNat < 8, s.fl.E = true → exec (.jeq a) s = .next { s with pc := s.x[a.toNat].toNat }) ∧
    (a.toNat < 8 → s.fl.E = false → exec (.jeq a) s = .next { s with pc := s.pc + 2 }) ∧
    (8 ≤ a.toNat → exec (.jeq a) s = .next { s with run := .error, err := some (.invalidRegister a) })

/-- Rule R164: JNE tests E alone; the register is checked taken or not. -/
def Obligations.JneResult : Prop :=
  ∀ (a : Byte) (s : State),
    encode (.jne a) = [0x56, a] ∧
    (∀ ha : a.toNat < 8, s.fl.E = false → exec (.jne a) s = .next { s with pc := s.x[a.toNat].toNat }) ∧
    (a.toNat < 8 → s.fl.E = true → exec (.jne a) s = .next { s with pc := s.pc + 2 }) ∧
    (8 ≤ a.toNat → exec (.jne a) s = .next { s with run := .error, err := some (.invalidRegister a) })

/-- Rule R180: HLT sets the run state to Halted and leaves every other field, pc included. -/
def Obligations.HltResult : Prop :=
  ∀ s : State, encode .hlt = [0x01] ∧ exec .hlt s = .next { s with run := .halted }

/-! ## ALU and flag logic -/

/-- Rule R120: the ALU's two operations modulo 256, and the error of any other select. -/
def Obligations.AluComputesModulo256 : Prop :=
  ∀ p q : Byte,
    (∃ v : Byte, alu .add p q = .ok v ∧ v.toNat = (p.toNat + q.toNat) % 256) ∧
    (∃ v : Byte, alu .mul p q = .ok v ∧ v.toNat = (p.toNat * q.toNat) % 256) ∧
    (∀ f, f ≠ .add → f ≠ .mul → alu f p q = .error (.unsupportedAluOperation f))

/-- The laws of rule R123: ADD and MUL commute and associate and MUL distributes over ADD, modulo 256. -/
def Obligations.AluLaws : Prop :=
  ∀ p q r : Byte,
    alu .add p q = alu .add q p ∧ alu .mul p q = alu .mul q p ∧
    ((alu .add p q).bind (fun v => alu .add v r) = (alu .add q r).bind (fun v => alu .add p v)) ∧
    ((alu .mul p q).bind (fun v => alu .mul v r) = (alu .mul q r).bind (fun v => alu .mul p v)) ∧
    ((alu .add q r).bind (fun v => alu .mul p v) =
      (alu .mul p q).bind (fun u => (alu .mul p r).bind (fun v => alu .add u v)))

/-- Rule R203: no step raises UnsupportedAluOperation. -/
def Obligations.NoStepRaisesUnsupportedAluOperation : Prop :=
  ∀ (s t : State) (f : AluSelect), s.err = none → step s = .next t → t.err ≠ some (.unsupportedAluOperation f)

/-- Equal gives E alone, greater gives G alone, less gives L alone, compared unsigned (42_alu_and_flags.md §2, R124); the
packed view is then 1, 2 or 4 (10_state.md §5: the packing of R27, and R28, marked derived in the spec). -/
def Obligations.ComparisonSetsExactlyOneFlag : Prop :=
  ∀ p q : Byte,
    (p.toNat = q.toNat → compareFlags p q = ⟨true, false, false⟩ ∧ flByte (compareFlags p q) = 1) ∧
    (p.toNat > q.toNat → compareFlags p q = ⟨false, true, false⟩ ∧ flByte (compareFlags p q) = 2) ∧
    (p.toNat < q.toNat → compareFlags p q = ⟨false, false, true⟩ ∧ flByte (compareFlags p q) = 4)

/-! ## Frames: what no instruction but the named ones changes, errors included -/

/-- Rule R126: every instruction but CMP leaves all three flags as they were. -/
def Obligations.OnlyCmpWritesTheFlags : Prop :=
  ∀ (i : Instr) (s t : State), (∀ a b, i ≠ .cmp a b) → exec i s = .next t → t.fl = s.fl

/-- Rule R126: no instruction but JEQ and JNE reads the flags: with other flags before it, a CMP that raises no error ends
in the same state, and every other instruction does the same to everything but the flags, which it passes on. -/
def Obligations.OnlyJeqAndJneReadTheFlags : Prop :=
  ∀ (i : Instr) (s t : State) (f : Flags), (∀ a, i ≠ .jeq a) → (∀ a, i ≠ .jne a) → exec i s = .next t →
    ((∀ a b, i ≠ .cmp a b) → exec i { s with fl := f } = .next { t with fl := f }) ∧
    ((∃ a b, i = .cmp a b) → t.run ≠ .error → exec i { s with fl := f } = .next t)

/-- Only PUSH and CALL lower sp, by 1, and only POP and RET raise it, by 1; every other instruction, and every error,
leaves it (10_state.md §4, rule R26). -/
def Obligations.OnlyStackInstructionsMoveSp : Prop :=
  ∀ (i : Instr) (s t : State), exec i s = .next t →
    t.sp = s.sp ∨ (t.sp + 1 = s.sp ∧ ∃ a, i = .push a ∨ i = .call a) ∨
      (t.sp = s.sp + 1 ∧ (i = .ret ∨ ∃ a, i = .pop a))

/-- Only PRN appends to the output, one value, that of its register; every other instruction, and every error, leaves
the output (10_state.md §7, rule R31). -/
def Obligations.OnlyPrnEmits : Prop :=
  ∀ (i : Instr) (s t : State), exec i s = .next t →
    t.out = s.out ∨ ∃ a : Byte, ∃ ha : a.toNat < 8, i = .prn a ∧ t.out = s.out ++ [s.x[a.toNat]]

/-- Every instruction but PUSH and CALL leaves every byte of memory (20_memory.md §2, the table of R48, marked derived
in the spec). -/
def Obligations.OnlyPushAndCallWriteMemory : Prop :=
  ∀ (i : Instr) (s t : State), (∀ a, i ≠ .push a) → (∀ a, i ≠ .call a) → exec i s = .next t →
    ∀ addr : Int, memRead addr t = memRead addr s

/-- PUSH and CALL store one byte, at `pushAddr`, the address their meanings use; every other byte reads as before
(rules R41, R141). -/
def Obligations.PushAndCallStoreOnlyAtThePushAddress : Prop :=
  ∀ (i : Instr) (a : Byte) (s t : State), i = .push a ∨ i = .call a → exec i s = .next t →
    ∀ addr : Int, addr ≠ pushAddr s → memRead addr t = memRead addr s

/-- Every register but the destination of LDI, ADD, MUL and POP keeps its value (10_state.md §2, the table of R23,
marked derived in the spec). -/
def Obligations.OnlyTheDestinationRegisterChanges : Prop :=
  ∀ (i : Instr) (s t : State) (r : Fin 8), exec i s = .next t →
    (∀ a b, i = .ldi a b ∨ i = .add a b ∨ i = .mul a b ∨ i = .pop a → a.toNat ≠ r.val) → readReg r t = readReg r s

/-- The run state and the error record change only by HLT, which sets Halted, and by an error (rules R30, R82, R204). -/
def Obligations.RunStateChangesOnlyByHltOrError : Prop :=
  ∀ (i : Instr) (s t : State), exec i s = .next t →
    (i ≠ .hlt ∧ t.run = s.run ∧ t.err = s.err) ∨ (i = .hlt ∧ t.run = .halted ∧ t.err = s.err) ∨
      (i ≠ .hlt ∧ ∃ e, t = { s with run := .error, err := some e })

/-! ## Reset and invariants -/

/-- Rule R35: the value of every piece of state after reset. -/
def Obligations.ResetStateValues : Prop :=
  (∀ r : Fin 8, readReg r State.reset = 0) ∧ State.reset.pc = 0 ∧ State.reset.sp = 244 ∧
  State.reset.fl = ⟨false, false, false⟩ ∧ flByte State.reset.fl = 0 ∧
  (∀ n : Nat, n ≤ 255 → memRead (n : Int) State.reset = .ok 0) ∧
  State.reset.run = .running ∧ State.reset.err = none ∧ State.reset.out = []

/-- The invariant holds at reset. -/
def Obligations.ResetMeetsTheInvariant : Prop := State.reset.Inv

/-- Every step keeps the invariant: memory canonical, pc and sp at most 256 (rules R25, R26), at most one flag set
(R28), the record filled exactly in Error (R30) and possible (R44, R201, R203). -/
def Obligations.StepKeepsTheInvariant : Prop :=
  ∀ s t : State, s.Inv → step s = .next t → t.Inv

/-- Every run, of any length and from any state that meets the invariant, ends in one that does (rule R88 for the
run). -/
def Obligations.RunsKeepTheInvariant : Prop :=
  ∀ (n : Nat) (s : State), s.Inv → (runFor n s).Inv

/-! ## The host's load and exit code -/

/-- Rules R233, R234: a program of at most 256 bytes loaded after reset lies from address 0, the other cells are 0 and
the rest of the state is as at reset; a longer one fails with OutOfBounds(256). -/
def Obligations.LoadPlacesTheProgramFromAddressZero : Prop :=
  ∀ bytes : List Byte,
    (bytes.length ≤ 256 → ∃ t, bootProgram bytes = .ok t ∧ t = { State.reset with mem := t.mem } ∧
      ∀ n : Nat, n ≤ 255 → memRead (n : Int) t = .ok (bytes[n]?.getD 0)) ∧
    (257 ≤ bytes.length → bootProgram bytes = .error (.outOfBounds 256))

/-- A loaded program starts from a state that meets the invariant. -/
def Obligations.LoadedProgramMeetsTheInvariant : Prop :=
  ∀ (bytes : List Byte) (t : State), bootProgram bytes = .ok t → t.Inv

/-- Rule R213: exit code 0 after a halt and, by the choice of log entry 4, after an unknown opcode; the host's open
parameter after the other errors, whatever it is; none while the run goes on. -/
def Obligations.ExitCodeOfTheRun : Prop :=
  ∀ s : State,
    (s.run = .running → exitCode s = none) ∧ (s.run = .halted → exitCode s = some 0) ∧
    (∀ op, s.run = .error → s.err = some (.unknownOpcode op) → exitCode s = some 0) ∧
    (∀ addr, s.run = .error → s.err = some (.outOfBounds addr) →
      exitCode s = some (Config.hostErrorExitCode .outOfBounds)) ∧
    (∀ k, s.run = .error → s.err = some (.invalidRegister k) →
      exitCode s = some (Config.hostErrorExitCode .invalidRegister))

/-! ## The testable properties of the source -/

/-- PUSH then POP of one register restores it and sp (43_stack.md, rule R144's testable property). -/
def Obligations.PushThenPopRestoresRegisterAndSp : Prop :=
  ∀ (a : Byte) (s : State), a.toNat < 8 → 1 ≤ s.sp → s.sp ≤ 256 →
    ∃ t u, exec (.push a) s = .next t ∧ exec (.pop a) t = .next u ∧ u.x = s.x ∧ u.sp = s.sp ∧ u.pc = s.pc + 4

/-- CALL then RET resumes at the CALL's pc + 2 with sp and the registers as before (44_control_transfer.md, rule R161's
testable property). -/
def Obligations.CallThenRetResumesAfterTheCall : Prop :=
  ∀ (a : Byte) (s : State), a.toNat < 8 → s.pc ≤ 253 → 1 ≤ s.sp → s.sp ≤ 256 →
    ∃ t u, exec (.call a) s = .next t ∧ exec .ret t = .next u ∧ u.pc = s.pc + 2 ∧ u.sp = s.sp ∧ u.x = s.x

/-- After CMP, exactly one of JEQ and JNE to a register jumps: JEQ if the compared registers were equal, JNE if not
(44_control_transfer.md, the testable properties in rules R163 and R164). -/
def Obligations.CmpDecidesTheBranches : Prop :=
  ∀ (a b r : Byte) (s : State), ∀ ha : a.toNat < 8, ∀ hb : b.toNat < 8, ∀ hr : r.toNat < 8,
    ∃ t, exec (.cmp a b) s = .next t ∧
      (s.x[a.toNat] = s.x[b.toNat] → exec (.jeq r) t = .next { t with pc := s.x[r.toNat].toNat } ∧
        exec (.jne r) t = .next { t with pc := s.pc + 5 }) ∧
      (s.x[a.toNat] ≠ s.x[b.toNat] → exec (.jne r) t = .next { t with pc := s.x[r.toNat].toNat } ∧
        exec (.jeq r) t = .next { t with pc := s.pc + 5 })

/-- LDI then PRN of one register emits exactly the immediate (41_register_io.md, rule R101's testable property). -/
def Obligations.LdiThenPrnEmitsTheImmediate : Prop :=
  ∀ (a b : Byte) (s : State), a.toNat < 8 →
    ∃ t u, exec (.ldi a b) s = .next t ∧ exec (.prn a) t = .next u ∧ u.out = s.out ++ [b] ∧ u.pc = s.pc + 5

/-! ## Completion -/

/-- Every instruction completes where the table of R202 (60_exceptions.md §1, marked derived in the spec) gives it no
error of its own: its register operands name registers, sp is 1 to 256 for PUSH and CALL and at most 255 for POP and
RET. It answers a next state with no error raised: the record is as before, and run is Halted for HLT (R180) and as
before for every other instruction. What else that state holds is said by the result statement of the instruction. -/
def Obligations.EveryInstructionCompletesWhereNoErrorApplies : Prop :=
  ∀ (i : Instr) (s : State),
    (∀ k ∈ i.regOperands, k.toNat < 8) →
    ((∃ a, i = .push a ∨ i = .call a) → 1 ≤ s.sp ∧ s.sp ≤ 256) →
    ((i = .ret ∨ ∃ a, i = .pop a) → s.sp ≤ 255) →
    ∃ t, exec i s = .next t ∧ t.err = s.err ∧ t.run = if i = .hlt then .halted else s.run
end

