-- ==== Sys2Proof/Laws/State.lean ====
section
/-! SUPPORT. One lemma per field per update of `State`, so that no proof unfolds a record update. -/

namespace Sys2Proof.Machine

variable (s : State)

@[simp] theorem writeReg_x (r : Fin 8) (v : Byte) : (writeReg r v s).x = s.x.set r.val v := rfl
@[simp] theorem writeReg_pc (r : Fin 8) (v : Byte) : (writeReg r v s).pc = s.pc := rfl
@[simp] theorem writeReg_sp (r : Fin 8) (v : Byte) : (writeReg r v s).sp = s.sp := rfl
@[simp] theorem writeReg_fl (r : Fin 8) (v : Byte) : (writeReg r v s).fl = s.fl := rfl
@[simp] theorem writeReg_mem (r : Fin 8) (v : Byte) : (writeReg r v s).mem = s.mem := rfl
@[simp] theorem writeReg_run (r : Fin 8) (v : Byte) : (writeReg r v s).run = s.run := rfl
@[simp] theorem writeReg_err (r : Fin 8) (v : Byte) : (writeReg r v s).err = s.err := rfl
@[simp] theorem writeReg_out (r : Fin 8) (v : Byte) : (writeReg r v s).out = s.out := rfl

@[simp] theorem jumpTo_x (t : Byte) : (jumpTo t s).x = s.x := rfl
@[simp] theorem jumpTo_pc (t : Byte) : (jumpTo t s).pc = t.toNat := rfl
@[simp] theorem jumpTo_sp (t : Byte) : (jumpTo t s).sp = s.sp := rfl
@[simp] theorem jumpTo_fl (t : Byte) : (jumpTo t s).fl = s.fl := rfl
@[simp] theorem jumpTo_mem (t : Byte) : (jumpTo t s).mem = s.mem := rfl
@[simp] theorem jumpTo_run (t : Byte) : (jumpTo t s).run = s.run := rfl
@[simp] theorem jumpTo_err (t : Byte) : (jumpTo t s).err = s.err := rfl
@[simp] theorem jumpTo_out (t : Byte) : (jumpTo t s).out = s.out := rfl

@[simp] theorem advance_x (n : Nat) : (advance n s).x = s.x := rfl
@[simp] theorem advance_pc (n : Nat) : (advance n s).pc = s.pc + n := rfl
@[simp] theorem advance_sp (n : Nat) : (advance n s).sp = s.sp := rfl
@[simp] theorem advance_fl (n : Nat) : (advance n s).fl = s.fl := rfl
@[simp] theorem advance_mem (n : Nat) : (advance n s).mem = s.mem := rfl
@[simp] theorem advance_run (n : Nat) : (advance n s).run = s.run := rfl
@[simp] theorem advance_err (n : Nat) : (advance n s).err = s.err := rfl
@[simp] theorem advance_out (n : Nat) : (advance n s).out = s.out := rfl

@[simp] theorem setSp_x (v : Nat) : (setSp v s).x = s.x := rfl
@[simp] theorem setSp_pc (v : Nat) : (setSp v s).pc = s.pc := rfl
@[simp] theorem setSp_sp (v : Nat) : (setSp v s).sp = v := rfl
@[simp] theorem setSp_fl (v : Nat) : (setSp v s).fl = s.fl := rfl
@[simp] theorem setSp_mem (v : Nat) : (setSp v s).mem = s.mem := rfl
@[simp] theorem setSp_run (v : Nat) : (setSp v s).run = s.run := rfl
@[simp] theorem setSp_err (v : Nat) : (setSp v s).err = s.err := rfl
@[simp] theorem setSp_out (v : Nat) : (setSp v s).out = s.out := rfl

@[simp] theorem setFlags_x (f : Flags) : (setFlags f s).x = s.x := rfl
@[simp] theorem setFlags_pc (f : Flags) : (setFlags f s).pc = s.pc := rfl
@[simp] theorem setFlags_sp (f : Flags) : (setFlags f s).sp = s.sp := rfl
@[simp] theorem setFlags_fl (f : Flags) : (setFlags f s).fl = f := rfl
@[simp] theorem setFlags_mem (f : Flags) : (setFlags f s).mem = s.mem := rfl
@[simp] theorem setFlags_run (f : Flags) : (setFlags f s).run = s.run := rfl
@[simp] theorem setFlags_err (f : Flags) : (setFlags f s).err = s.err := rfl
@[simp] theorem setFlags_out (f : Flags) : (setFlags f s).out = s.out := rfl

@[simp] theorem emit_x (v : Byte) : (emit v s).x = s.x := rfl
@[simp] theorem emit_pc (v : Byte) : (emit v s).pc = s.pc := rfl
@[simp] theorem emit_sp (v : Byte) : (emit v s).sp = s.sp := rfl
@[simp] theorem emit_fl (v : Byte) : (emit v s).fl = s.fl := rfl
@[simp] theorem emit_mem (v : Byte) : (emit v s).mem = s.mem := rfl
@[simp] theorem emit_run (v : Byte) : (emit v s).run = s.run := rfl
@[simp] theorem emit_err (v : Byte) : (emit v s).err = s.err := rfl
@[simp] theorem emit_out (v : Byte) : (emit v s).out = s.out ++ [v] := rfl

@[simp] theorem storeByte_x (a : Nat) (v : Byte) : (storeByte a v s).x = s.x := rfl
@[simp] theorem storeByte_pc (a : Nat) (v : Byte) : (storeByte a v s).pc = s.pc := rfl
@[simp] theorem storeByte_sp (a : Nat) (v : Byte) : (storeByte a v s).sp = s.sp := rfl
@[simp] theorem storeByte_fl (a : Nat) (v : Byte) : (storeByte a v s).fl = s.fl := rfl
@[simp] theorem storeByte_mem (a : Nat) (v : Byte) : (storeByte a v s).mem = Memory.write s.mem a v := rfl
@[simp] theorem storeByte_run (a : Nat) (v : Byte) : (storeByte a v s).run = s.run := rfl
@[simp] theorem storeByte_err (a : Nat) (v : Byte) : (storeByte a v s).err = s.err := rfl
@[simp] theorem storeByte_out (a : Nat) (v : Byte) : (storeByte a v s).out = s.out := rfl

@[simp] theorem haltRun_x : (haltRun s).x = s.x := rfl
@[simp] theorem haltRun_pc : (haltRun s).pc = s.pc := rfl
@[simp] theorem haltRun_sp : (haltRun s).sp = s.sp := rfl
@[simp] theorem haltRun_fl : (haltRun s).fl = s.fl := rfl
@[simp] theorem haltRun_mem : (haltRun s).mem = s.mem := rfl
@[simp] theorem haltRun_run : (haltRun s).run = RunState.halted := rfl
@[simp] theorem haltRun_err : (haltRun s).err = s.err := rfl
@[simp] theorem haltRun_out : (haltRun s).out = s.out := rfl

@[simp] theorem raiseError_x (e : CoreError) : (raiseError e s).x = s.x := rfl
@[simp] theorem raiseError_pc (e : CoreError) : (raiseError e s).pc = s.pc := rfl
@[simp] theorem raiseError_sp (e : CoreError) : (raiseError e s).sp = s.sp := rfl
@[simp] theorem raiseError_fl (e : CoreError) : (raiseError e s).fl = s.fl := rfl
@[simp] theorem raiseError_mem (e : CoreError) : (raiseError e s).mem = s.mem := rfl
@[simp] theorem raiseError_run (e : CoreError) : (raiseError e s).run = RunState.error := rfl
@[simp] theorem raiseError_err (e : CoreError) : (raiseError e s).err = some e := rfl
@[simp] theorem raiseError_out (e : CoreError) : (raiseError e s).out = s.out := rfl

end Sys2Proof.Machine
end

