-- ==== Sys2Proof/Laws/Memory.lean ====
section
/-! SUPPORT. The laws of memory: a read after a write, and that every memory operation keeps the canonical form. -/

namespace Sys2Proof.Machine

theorem Memory.read_insert (c : Host.Cell) (m : List Host.Cell) (a : Nat) (h : ∀ d ∈ m, d.1 ≠ c.1) :
    Memory.read (Memory.insert c m) a = if c.1 = a then c.2 else Memory.read m a := by
  induction m with
  | nil => rfl
  | cons d rest ih =>
    have hd : d.1 ≠ c.1 := h d (by simp)
    have hr : ∀ e ∈ rest, e.1 ≠ c.1 := fun e he => h e (by simp [he])
    by_cases hlt : d.1 < c.1
    · simp only [Memory.insert, hlt, if_true, Memory.read, ih hr]
      split <;> split <;> simp_all
    · simp [Memory.insert, hlt, Memory.read]

theorem Memory.read_filter (m : List Host.Cell) (a b : Nat) :
    Memory.read (m.filter (fun c => c.1 != a)) b = if b = a then Memory.unlisted else Memory.read m b := by
  induction m with
  | nil => simp [Memory.read]
  | cons d rest ih =>
    by_cases hd : d.1 = a
    · simp only [List.filter, hd, bne_self_eq_false, ih, Memory.read]
      split <;> simp_all [eq_comm]
    · have : (d.1 != a) = true := by simpa using hd
      simp only [List.filter, this, Memory.read, ih]
      split <;> split <;> simp_all

/-- A read after a write, at any address of any memory, canonical or not. -/
theorem Memory.read_write (m : List Host.Cell) (a b : Nat) (v : Byte) :
    Memory.read (Memory.write m a v) b = if b = a then v else Memory.read m b := by
  unfold Memory.write
  have hf : ∀ d ∈ m.filter (fun c => c.1 != a), d.1 ≠ a := by simp
  by_cases hv : v = Memory.unlisted
  · simp [hv, Memory.read_filter]
  · simp only [hv, if_false, Memory.read_insert (a, v) _ b hf, Memory.read_filter]
    by_cases h : b = a
    · simp [h]
    · simp [h, Ne.symm h]

theorem Memory.mem_insert (c d : Host.Cell) (m : List Host.Cell) :
    d ∈ Memory.insert c m ↔ d = c ∨ d ∈ m := by
  induction m with
  | nil => simp [Memory.insert]
  | cons e rest ih =>
    unfold Memory.insert
    split
    · simp [ih, or_left_comm]
    · simp

theorem Memory.insert_pairwise (c : Host.Cell) (m : List Host.Cell)
    (hs : m.Pairwise (fun c d => c.1 < d.1)) (hne : ∀ d ∈ m, d.1 ≠ c.1) :
    (Memory.insert c m).Pairwise (fun c d => c.1 < d.1) := by
  induction m with
  | nil => simp [Memory.insert]
  | cons e rest ih =>
    obtain ⟨he, hr⟩ := List.pairwise_cons.mp hs
    have hec : e.1 ≠ c.1 := hne e (by simp)
    unfold Memory.insert
    split
    · rename_i hlt
      refine List.pairwise_cons.mpr ⟨fun d hd => ?_, ih hr fun d hd => hne d (by simp [hd])⟩
      rcases (Memory.mem_insert c d rest).mp hd with rfl | hd
      · exact hlt
      · exact he d hd
    · refine List.pairwise_cons.mpr ⟨fun d hd => ?_, hs⟩
      rcases List.mem_cons.mp hd with rfl | hd
      · omega
      · have := he d hd
        omega

/-- Every write inside memory keeps the canonical form. -/
theorem Memory.write_wf {m : List Host.Cell} {a : Nat} (v : Byte) (h : Memory.wf m) (ha : a < 256) :
    Memory.wf (Memory.write m a v) := by
  obtain ⟨hs, hc⟩ := h
  have hs' : (m.filter (fun c => c.1 != a)).Pairwise (fun c d => c.1 < d.1) := hs.filter _
  unfold Memory.write
  split
  · exact ⟨hs', fun c hm => hc c (List.mem_filter.mp hm).1⟩
  · rename_i hv
    refine ⟨Memory.insert_pairwise _ _ hs' (by simp), fun c hm => ?_⟩
    rcases (Memory.mem_insert _ c _).mp hm with rfl | hm
    · exact ⟨ha, hv⟩
    · exact hc c (List.mem_filter.mp hm).1

/-- Memory at reset is canonical. -/
theorem reset_mem_wf : Memory.wf State.reset.mem := by decide

/-- A store inside memory keeps the canonical form. -/
theorem storeByte_wf {a : Nat} (v : Byte) {s : State} (h : Memory.wf s.mem) (ha : a < 256) :
    Memory.wf (storeByte a v s).mem := Memory.write_wf v h ha

/-- A checked write keeps the canonical form wherever it is made. -/
theorem memWrite_wf {addr : Int} {v : Byte} {s t : State} (h : Memory.wf s.mem) (hw : memWrite addr v s = .ok t) :
    Memory.wf t.mem := by
  unfold memWrite at hw
  split at hw
  · rename_i hb
    obtain ⟨h0, h1⟩ := hb
    cases hw
    exact storeByte_wf v h (by omega)
  · cases hw

end Sys2Proof.Machine
end

