-- ==== Sys2Proof/Laws/Ops.lean ====
section
/-! SUPPORT. One lemma per shared operation saying what it can do: what it answers, and when. -/

namespace Sys2Proof.Machine

variable {s t : State}

/-! ## Ends of a handler -/

@[simp] theorem settle_ok (s t : State) : settle s (.ok t) = .next t := rfl

@[simp] theorem settle_error (s : State) (e : CoreError) : settle s (.error e) = .next (raiseError e s) := rfl

/-- A settled handler answers its own state, or the error entered from the state it began in. -/
theorem settle_next {r : Except CoreError State} (h : settle s r = .next t) :
    r = .ok t ∨ ∃ e, r = .error e ∧ t = raiseError e s := by
  cases r with
  | ok u => simp_all
  | error e => exact .inr ⟨e, rfl, by simpa [eq_comm] using h⟩

/-- A settled handler always answers a next state. -/
theorem settle_total (s : State) (r : Except CoreError State) : ∃ t, settle s r = .next t := by
  cases r <;> exact ⟨_, rfl⟩

/-! ## Register operands -/

theorem reg_ok {k : Byte} (h : k.toNat < 8) : reg k = .ok ⟨k.toNat, h⟩ := by simp [reg, h]

theorem reg_error {k : Byte} (h : 8 ≤ k.toNat) : reg k = .error (.invalidRegister k) := by
  simp [reg, Nat.not_lt.mpr h]

/-- The two answers of `reg`. -/
theorem reg_cases (k : Byte) :
    (∃ h : k.toNat < 8, reg k = .ok ⟨k.toNat, h⟩) ∨ (8 ≤ k.toNat ∧ reg k = .error (.invalidRegister k)) := by
  rcases Nat.lt_or_ge k.toNat 8 with h | h
  · exact .inl ⟨h, reg_ok h⟩
  · exact .inr ⟨h, reg_error h⟩

theorem readReg_writeReg (r q : Fin 8) (v : Byte) (s : State) :
    readReg r (writeReg q v s) = if r = q then v else readReg r s := by
  simp only [readReg, writeReg, Vector.getElem_set]
  simp [Fin.ext_iff, eq_comm]

/-! ## Memory -/

theorem memRead_ok {a : Nat} (h : a ≤ 255) (s : State) : memRead (a : Int) s = .ok (Memory.read s.mem a) := by
  have : inBounds (a : Int) := ⟨by omega, by omega⟩
  simp [memRead, this]

theorem memRead_error {addr : Int} (h : ¬ inBounds addr) (s : State) :
    memRead addr s = .error (.outOfBounds addr) := by simp [memRead, h]

theorem memWrite_ok {a : Nat} (h : a ≤ 255) (v : Byte) (s : State) :
    memWrite (a : Int) v s = .ok (storeByte a v s) := by
  have : inBounds (a : Int) := ⟨by omega, by omega⟩
  simp [memWrite, this]

theorem memWrite_error {addr : Int} (h : ¬ inBounds addr) (v : Byte) (s : State) :
    memWrite addr v s = .error (.outOfBounds addr) := by simp [memWrite, h]

/-- What a write that is made does: one cell set inside memory. -/
theorem memWrite_eq_ok {addr : Int} {v : Byte} (h : memWrite addr v s = .ok t) :
    ∃ a : Nat, addr = a ∧ a ≤ 255 ∧ t = storeByte a v s := by
  unfold memWrite at h
  split at h
  · rename_i hb
    obtain ⟨h0, h1⟩ := hb
    refine ⟨addr.toNat, by omega, by omega, ?_⟩
    simpa [eq_comm] using h
  · simp at h

/-- Memory is read the same wherever `mem` is the same. -/
theorem memRead_congr (h : t.mem = s.mem) (addr : Int) : memRead addr t = memRead addr s := by
  simp [memRead, h]

/-- A byte read after a store. -/
theorem memRead_storeByte {a : Nat} (ha : a ≤ 255) (v : Byte) (addr : Int) (s : State) :
    memRead addr (storeByte a v s) = if addr = a then .ok v else memRead addr s := by
  by_cases hb : inBounds addr
  · have : addr.toNat = a ↔ addr = (a : Int) := by
      obtain ⟨h0, _⟩ := hb
      omega
    simp only [memRead, if_pos hb, storeByte_mem, Memory.read_write, this]
    split <;> rfl
  · have : addr ≠ (a : Int) := fun he => hb ⟨by omega, by omega⟩
    simp [memRead, hb, this]

/-! ## Stack -/

theorem push_ok {v : Byte} (h0 : 1 ≤ s.sp) (h1 : s.sp ≤ 256) :
    push v s = .ok (setSp (s.sp - 1) (storeByte (s.sp - 1) v s)) := by
  have h : pushAddr s = ((s.sp - 1 : Nat) : Int) := by
    unfold pushAddr
    omega
  simp [push, h, memWrite_ok (show s.sp - 1 ≤ 255 by omega), bind, Except.bind, pure, Except.pure]

theorem push_zero {v : Byte} (h : s.sp = 0) : push v s = .error (.outOfBounds (-1)) := by
  have hb : ¬ inBounds (-1) := by simp [inBounds]
  simp [push, pushAddr, h, memWrite_error hb, bind, Except.bind]

theorem pop_ok (h : s.sp ≤ 255) : pop s = .ok (Memory.read s.mem s.sp, setSp (s.sp + 1) s) := by
  simp [pop, memRead_ok h, bind, Except.bind, pure, Except.pure]

theorem pop_error (h : 256 ≤ s.sp) : pop s = .error (.outOfBounds s.sp) := by
  have hb : ¬ inBounds (s.sp : Int) := fun hb => by
    obtain ⟨_, h1⟩ := hb
    omega
  simp [pop, memRead_error hb, bind, Except.bind]

/-- The two answers of `pop`. -/
theorem pop_cases (s : State) :
    (s.sp ≤ 255 ∧ pop s = .ok (Memory.read s.mem s.sp, setSp (s.sp + 1) s)) ∨
    (256 ≤ s.sp ∧ pop s = .error (.outOfBounds s.sp)) := by
  rcases Nat.lt_or_ge s.sp 256 with h | h
  · exact .inl ⟨by omega, pop_ok (by omega)⟩
  · exact .inr ⟨h, pop_error h⟩

/-- The three answers of `push`: done, below the bottom, or above the top (which no reachable state is). -/
theorem push_cases (v : Byte) (s : State) :
    (1 ≤ s.sp ∧ s.sp ≤ 256 ∧ push v s = .ok (setSp (s.sp - 1) (storeByte (s.sp - 1) v s))) ∨
    (s.sp = 0 ∧ push v s = .error (.outOfBounds (-1))) ∨
    (257 ≤ s.sp ∧ push v s = .error (.outOfBounds (pushAddr s))) := by
  rcases Nat.eq_zero_or_pos s.sp with h | h
  · exact .inr (.inl ⟨h, push_zero h⟩)
  · rcases Nat.lt_or_ge s.sp 257 with h' | h'
    · exact .inl ⟨h, by omega, push_ok h (by omega)⟩
    · refine .inr (.inr ⟨h', ?_⟩)
      have hb : ¬ inBounds (pushAddr s) := by
        unfold pushAddr inBounds
        omega
      simp [push, memWrite_error hb, bind, Except.bind]

/-! ## ALU and flags -/

/-- ADD and MUL of the ALU never fail: no program raises UnsupportedAluOperation (rule R203). -/
theorem alu_add (p q : Byte) : alu .add p q = .ok (BitVec.ofNat 8 ((p.toNat + q.toNat) % 256)) := rfl

theorem alu_mul (p q : Byte) : alu .mul p q = .ok (BitVec.ofNat 8 ((p.toNat * q.toNat) % 256)) := rfl

/-- Wherever the two operands name registers, an ALU handler answers as its ALU operation does. -/
theorem aluHandler_ok {f : AluSelect} {a b : Byte} (ha : a.toNat < 8) (hb : b.toNat < 8) (s : State) :
    aluHandler f a b s =
      (alu f (readReg ⟨a.toNat, ha⟩ s) (readReg ⟨b.toNat, hb⟩ s)).map
        (fun v => advance 3 (writeReg ⟨a.toNat, ha⟩ v s)) := by
  simp only [aluHandler, reg_ok ha, reg_ok hb, bind, Except.bind]
  cases alu f (readReg ⟨a.toNat, ha⟩ s) (readReg ⟨b.toNat, hb⟩ s) <;> rfl

end Sys2Proof.Machine
end

