-- ==== Sys2Proof/Laws/Decode.lean ====
section
/-! SUPPORT. What decoding, lookup and fetching can answer. -/

namespace Sys2Proof

/-- A byte that is no opcode of the map is refused by its name. -/
theorem decode_miss {op : Byte} (a b : Byte) (h : op ∉ opcodeMap) : decode op a b = .error (.unknownOpcode op) := by
  simp only [opcodeMap, List.mem_cons, List.not_mem_nil, or_false, not_or] at h
  obtain ⟨h1, h2, h3, h4, h5, h6, h7, h8, h9, h10, h11, h12, h13⟩ := h
  rw [decode, if_neg h1, if_neg h2, if_neg h3, if_neg h4, if_neg h5, if_neg h6, if_neg h7, if_neg h8, if_neg h9,
    if_neg h10, if_neg h11, if_neg h12, if_neg h13]

/-- Every answer of the decoder, with the opcode byte it answers for: one case per row of rule R64, and the miss. -/
theorem decode_cases (op a b : Byte) :
    (op = 0x01 ∧ decode op a b = .ok .hlt) ∨ (op = 0x11 ∧ decode op a b = .ok .ret) ∨
    (op = 0x45 ∧ decode op a b = .ok (.push a)) ∨ (op = 0x46 ∧ decode op a b = .ok (.pop a)) ∨
    (op = 0x47 ∧ decode op a b = .ok (.prn a)) ∨ (op = 0x50 ∧ decode op a b = .ok (.call a)) ∨
    (op = 0x54 ∧ decode op a b = .ok (.jmp a)) ∨ (op = 0x55 ∧ decode op a b = .ok (.jeq a)) ∨
    (op = 0x56 ∧ decode op a b = .ok (.jne a)) ∨ (op = 0x82 ∧ decode op a b = .ok (.ldi a b)) ∨
    (op = 0xA0 ∧ decode op a b = .ok (.add a b)) ∨ (op = 0xA2 ∧ decode op a b = .ok (.mul a b)) ∨
    (op = 0xA7 ∧ decode op a b = .ok (.cmp a b)) ∨
    (op ∉ opcodeMap ∧ decode op a b = .error (.unknownOpcode op)) := by
  by_cases h : op ∈ opcodeMap
  · simp only [opcodeMap, List.mem_cons, List.not_mem_nil, or_false] at h
    rcases h with rfl | rfl | rfl | rfl | rfl | rfl | rfl | rfl | rfl | rfl | rfl | rfl | rfl <;> simp [decode]
  · simp only [decode_miss a b h, h, not_false_eq_true, and_self, or_true]

end Sys2Proof

namespace Sys2Proof.Machine

variable {s : State}

/-- Where the three bytes are in memory, the fetch reads them. -/
theorem fetch_ok (h : s.pc ≤ 253) :
    fetch s = .ok (Memory.read s.mem s.pc, Memory.read s.mem (s.pc + 1), Memory.read s.mem (s.pc + 2)) := by
  have h1 : ((s.pc : Int) + 1) = ((s.pc + 1 : Nat) : Int) := by omega
  have h2 : ((s.pc : Int) + 2) = ((s.pc + 2 : Nat) : Int) := by omega
  simp only [fetch, h1, h2, memRead_ok (show s.pc ≤ 255 by omega), memRead_ok (show s.pc + 1 ≤ 255 by omega),
    memRead_ok (show s.pc + 2 ≤ 255 by omega), bind, Except.bind, pure, Except.pure]

/-- At 254 to 256 the first address past 255 is 256, and the fetch fails there (rule R44). -/
theorem fetch_error (h : 254 ≤ s.pc) (h' : s.pc ≤ 256) : fetch s = .error (.outOfBounds 256) := by
  have hb : ¬ inBounds 256 := by simp [inBounds]
  obtain hp | hp | hp : s.pc = 254 ∨ s.pc = 255 ∨ s.pc = 256 := by omega
  all_goals
    simp [fetch, hp, memRead, inBounds, bind, Except.bind]

/-- The lookup of an opcode byte of the map is the decoder's instruction. -/
theorem lookup_ok {op a b : Byte} {i : Instr} (h : decode op a b = .ok i) : lookup op a b = .ok i := by
  simp [lookup, h]

theorem lookup_error {op : Byte} (a b : Byte) (h : op ∉ opcodeMap) : lookup op a b = .error (.unknownOpcode op) := by
  simp [lookup, decode_miss a b h]

/-- Fetch and decode at an address whose three bytes are in memory. -/
theorem fetchDecode_ok (h : s.pc ≤ 253) :
    fetchDecode s =
      lookup (Memory.read s.mem s.pc) (Memory.read s.mem (s.pc + 1)) (Memory.read s.mem (s.pc + 2)) := by
  simp [fetchDecode, fetch_ok h, bind, Except.bind]

theorem fetchDecode_error (h : 254 ≤ s.pc) (h' : s.pc ≤ 256) : fetchDecode s = .error (.outOfBounds 256) := by
  simp [fetchDecode, fetch_error h h', bind, Except.bind]

end Sys2Proof.Machine
end

