-- ==== Sys2Proof/Laws/Step.lean ====
section
/-! SUPPORT. What a step can do, said once: it is taken in Running only, and is either a fetched instruction's meaning
or an error entered from the state it began in. -/

namespace Sys2Proof.Machine

variable {s t : State}

theorem step_running_ok {i : Instr} (hr : s.run = .running) (h : fetchDecode s = .ok i) : step s = exec i s := by
  simp [step, engineStep, hr, h]

theorem step_running_error {e : CoreError} (hr : s.run = .running) (h : fetchDecode s = .error e) :
    step s = .next (raiseError e s) := by
  simp [step, engineStep, hr, h]

/-- The inversion of a step. -/
theorem step_next (h : step s = .next t) :
    s.run = .running ∧
      ((∃ i, fetchDecode s = .ok i ∧ exec i s = .next t) ∨ (∃ e, fetchDecode s = .error e ∧ t = raiseError e s)) := by
  cases hr : s.run with
  | halted => simp [step, engineStep, hr] at h
  | error => simp [step, engineStep, hr] at h
  | running =>
    refine ⟨rfl, ?_⟩
    cases hf : fetchDecode s with
    | ok i => exact .inl ⟨i, rfl, by simpa [step, engineStep, hr, hf] using h⟩
    | error e => exact .inr ⟨e, rfl, by simpa [step, engineStep, hr, hf, eq_comm] using h⟩

/-- Every instruction's meaning answers a next state from every state: nothing of the table faults or is refused. -/
theorem exec_total (i : Instr) (s : State) : ∃ t, exec i s = .next t := by
  cases i <;> first
    | exact settle_total s _
    | exact ⟨_, rfl⟩

/-- Placing an instruction for the next fetch keeps the canonical form. -/
theorem placeAtPc_wf (op a b : Byte) (h : Memory.wf s.mem) : Memory.wf (placeAtPc op a b s).mem := by
  unfold placeAtPc
  split
  · rename_i hp
    simp only [Config.memSize] at hp
    exact storeByte_wf b (storeByte_wf a (storeByte_wf op h (by omega)) (by omega)) (by omega)
  · exact h

end Sys2Proof.Machine
end

