-- ==== Sys2Proof/Laws/Exec.lean ====
section
/-! SUPPORT. What an instruction can answer, said once: `exec_next` lists every next state of every instruction, errors
included, with the conditions under which it is answered. Invariants and frames follow from it by cases. -/

namespace Sys2Proof.Machine

/-- The handlers whose first act is to check one register operand: either it is bad, or the rest runs. -/
theorem settle_reg (a : Byte) (s : State) (f : Fin 8 → Except CoreError State) :
    (∃ h : a.toNat < 8, settle s (reg a >>= f) = settle s (f ⟨a.toNat, h⟩)) ∨
    (8 ≤ a.toNat ∧ settle s (reg a >>= f) = .next (raiseError (.invalidRegister a) s)) := by
  rcases reg_cases a with ⟨h, e⟩ | ⟨h, e⟩
  · exact .inl ⟨h, by rw [e]; rfl⟩
  · exact .inr ⟨h, by rw [e]; rfl⟩

/-- The next states of an instruction at `s`. -/
inductive ExecNext (s : State) : Instr → State → Prop
  | ldi {a b : Byte} (ha : a.toNat < 8) : ExecNext s (.ldi a b) (advance 3 (writeReg ⟨_, ha⟩ b s))
  | prn {a : Byte} (ha : a.toNat < 8) : ExecNext s (.prn a) (advance 2 (emit (readReg ⟨_, ha⟩ s) s))
  | add {a b : Byte} (ha : a.toNat < 8) (hb : b.toNat < 8) :
      ExecNext s (.add a b) (advance 3 (writeReg ⟨_, ha⟩
        (BitVec.ofNat 8 (((readReg ⟨_, ha⟩ s).toNat + (readReg ⟨_, hb⟩ s).toNat) % 256)) s))
  | mul {a b : Byte} (ha : a.toNat < 8) (hb : b.toNat < 8) :
      ExecNext s (.mul a b) (advance 3 (writeReg ⟨_, ha⟩
        (BitVec.ofNat 8 (((readReg ⟨_, ha⟩ s).toNat * (readReg ⟨_, hb⟩ s).toNat) % 256)) s))
  | cmp {a b : Byte} (ha : a.toNat < 8) (hb : b.toNat < 8) :
      ExecNext s (.cmp a b)
        (advance 3 (setFlags (compareFlags (readReg ⟨_, ha⟩ s) (readReg ⟨_, hb⟩ s)) s))
  | push {a : Byte} (ha : a.toNat < 8) (h0 : 1 ≤ s.sp) (h1 : s.sp ≤ 256) :
      ExecNext s (.push a) (advance 2 (setSp (s.sp - 1) (storeByte (s.sp - 1) (readReg ⟨_, ha⟩ s) s)))
  | pop {a : Byte} (ha : a.toNat < 8) (h : s.sp ≤ 255) :
      ExecNext s (.pop a) (advance 2 (writeReg ⟨_, ha⟩ (Memory.read s.mem s.sp) (setSp (s.sp + 1) s)))
  | call {a : Byte} (ha : a.toNat < 8) (h0 : 1 ≤ s.sp) (h1 : s.sp ≤ 256) :
      ExecNext s (.call a)
        (jumpTo (readReg ⟨_, ha⟩ s) (setSp (s.sp - 1) (storeByte (s.sp - 1) (returnAddr s) s)))
  | ret (h : s.sp ≤ 255) : ExecNext s .ret (jumpTo (Memory.read s.mem s.sp) (setSp (s.sp + 1) s))
  | jmp {a : Byte} (ha : a.toNat < 8) : ExecNext s (.jmp a) (jumpTo (readReg ⟨_, ha⟩ s) s)
  | jeqTaken {a : Byte} (ha : a.toNat < 8) (hE : s.fl.E = true) :
      ExecNext s (.jeq a) (jumpTo (readReg ⟨_, ha⟩ s) s)
  | jeqNot {a : Byte} (ha : a.toNat < 8) (hE : s.fl.E = false) : ExecNext s (.jeq a) (advance 2 s)
  | jneTaken {a : Byte} (ha : a.toNat < 8) (hE : s.fl.E = false) :
      ExecNext s (.jne a) (jumpTo (readReg ⟨_, ha⟩ s) s)
  | jneNot {a : Byte} (ha : a.toNat < 8) (hE : s.fl.E = true) : ExecNext s (.jne a) (advance 2 s)
  | hlt : ExecNext s .hlt (haltRun s)
  /-- A bad register operand of any instruction. -/
  | badRegister {i : Instr} {k : Byte} (hi : k ∈ i.regOperands) (hk : 8 ≤ k.toNat) :
      ExecNext s i (raiseError (.invalidRegister k) s)
  /-- A push at sp 0. -/
  | pushAtZero {i : Instr} (hi : ∃ a, i = .push a ∨ i = .call a) (h : s.sp = 0) :
      ExecNext s i (raiseError (.outOfBounds (-1)) s)
  /-- A push above 256, which no reachable state makes. -/
  | pushAbove {i : Instr} (hi : ∃ a, i = .push a ∨ i = .call a) (h : 257 ≤ s.sp) :
      ExecNext s i (raiseError (.outOfBounds (pushAddr s)) s)
  /-- A pop at sp 256 (or above, which no reachable state makes). -/
  | popAtTop {i : Instr} (hi : i = .ret ∨ ∃ a, i = .pop a) (h : 256 ≤ s.sp) :
      ExecNext s i (raiseError (.outOfBounds s.sp) s)

/-- The inversion of `exec`. -/
theorem exec_next {i : Instr} {s t : State} (h : exec i s = .next t) : ExecNext s i t := by
  cases i with
  | ldi a b =>
    simp only [exec, execLdi] at h
    rcases settle_reg a s _ with ⟨ha, e⟩ | ⟨ha, e⟩ <;> rw [e] at h <;> cases h
    · exact .ldi ha
    · exact .badRegister (by simp [Instr.regOperands]) ha
  | prn a =>
    simp only [exec, execPrn] at h
    rcases settle_reg a s _ with ⟨ha, e⟩ | ⟨ha, e⟩ <;> rw [e] at h <;> cases h
    · exact .prn ha
    · exact .badRegister (by simp [Instr.regOperands]) ha
  | jmp a =>
    simp only [exec, execJmp] at h
    rcases settle_reg a s _ with ⟨ha, e⟩ | ⟨ha, e⟩ <;> rw [e] at h <;> cases h
    · exact .jmp ha
    · exact .badRegister (by simp [Instr.regOperands]) ha
  | jeq a =>
    simp only [exec, execJeq, branchHandler] at h
    rcases settle_reg a s _ with ⟨ha, e⟩ | ⟨ha, e⟩ <;> rw [e] at h
    · cases hE : s.fl.E <;> rw [hE] at h <;> cases h
      · exact .jeqNot ha hE
      · exact .jeqTaken ha hE
    · cases h
      exact .badRegister (by simp [Instr.regOperands]) ha
  | jne a =>
    simp only [exec, execJne, branchHandler] at h
    rcases settle_reg a s _ with ⟨ha, e⟩ | ⟨ha, e⟩ <;> rw [e] at h
    · cases hE : s.fl.E <;> rw [hE] at h <;> cases h
      · exact .jneTaken ha hE
      · exact .jneNot ha hE
    · cases h
      exact .badRegister (by simp [Instr.regOperands]) ha
  | push a =>
    simp only [exec, execPush] at h
    rcases settle_reg a s _ with ⟨ha, e⟩ | ⟨ha, e⟩ <;> rw [e] at h
    · rcases push_cases (readReg ⟨_, ha⟩ s) s with ⟨h0, h1, hp⟩ | ⟨h0, hp⟩ | ⟨h0, hp⟩ <;> rw [hp] at h <;> cases h
      · exact .push ha h0 h1
      · exact .pushAtZero ⟨a, .inl rfl⟩ h0
      · exact .pushAbove ⟨a, .inl rfl⟩ h0
    · cases h
      exact .badRegister (by simp [Instr.regOperands]) ha
  | call a =>
    simp only [exec, execCall] at h
    rcases settle_reg a s _ with ⟨ha, e⟩ | ⟨ha, e⟩ <;> rw [e] at h
    · rcases push_cases (returnAddr s) s with ⟨h0, h1, hp⟩ | ⟨h0, hp⟩ | ⟨h0, hp⟩ <;> rw [hp] at h <;> cases h
      · exact .call ha h0 h1
      · exact .pushAtZero ⟨a, .inr rfl⟩ h0
      · exact .pushAbove ⟨a, .inr rfl⟩ h0
    · cases h
      exact .badRegister (by simp [Instr.regOperands]) ha
  | pop a =>
    simp only [exec, execPop] at h
    rcases settle_reg a s _ with ⟨ha, e⟩ | ⟨ha, e⟩ <;> rw [e] at h
    · rcases pop_cases s with ⟨h0, hp⟩ | ⟨h0, hp⟩ <;> rw [hp] at h <;> cases h
      · exact .pop ha h0
      · exact .popAtTop (.inr ⟨a, rfl⟩) h0
    · cases h
      exact .badRegister (by simp [Instr.regOperands]) ha
  | ret =>
    simp only [exec, execRet] at h
    rcases pop_cases s with ⟨h0, hp⟩ | ⟨h0, hp⟩ <;> rw [hp] at h <;> cases h
    · exact .ret h0
    · exact .popAtTop (.inl rfl) h0
  | cmp a b =>
    simp only [exec, execCmp] at h
    rcases settle_reg a s _ with ⟨ha, e⟩ | ⟨ha, e⟩ <;> rw [e] at h
    · rcases settle_reg b s _ with ⟨hb, e⟩ | ⟨hb, e⟩ <;> rw [e] at h <;> cases h
      · exact .cmp ha hb
      · exact .badRegister (by simp [Instr.regOperands]) hb
    · cases h
      exact .badRegister (by simp [Instr.regOperands]) ha
  | add a b =>
    simp only [exec, execAdd, aluHandler] at h
    rcases settle_reg a s _ with ⟨ha, e⟩ | ⟨ha, e⟩ <;> rw [e] at h
    · rcases settle_reg b s _ with ⟨hb, e⟩ | ⟨hb, e⟩ <;> rw [e] at h <;> cases h
      · exact .add ha hb
      · exact .badRegister (by simp [Instr.regOperands]) hb
    · cases h
      exact .badRegister (by simp [Instr.regOperands]) ha
  | mul a b =>
    simp only [exec, execMul, aluHandler] at h
    rcases settle_reg a s _ with ⟨ha, e⟩ | ⟨ha, e⟩ <;> rw [e] at h
    · rcases settle_reg b s _ with ⟨hb, e⟩ | ⟨hb, e⟩ <;> rw [e] at h <;> cases h
      · exact .mul ha hb
      · exact .badRegister (by simp [Instr.regOperands]) hb
    · cases h
      exact .badRegister (by simp [Instr.regOperands]) ha
  | hlt =>
    cases h
    exact .hlt

end Sys2Proof.Machine
end

