-- ==== Sys2Proof/Laws/PerInstr.lean ====
section
/-! SUPPORT. A statement about every instruction as syntax: its encoding has the length rule R69 gives its format and
its first byte is an opcode of rule R64. -/

namespace Sys2Proof.Laws.EncodingShape

/-- The encoding is as long as the instruction, 1 to 3 bytes, and begins with an opcode of the map. -/
def Statement (i : Instr) : Prop :=
  (encode i).length = instrLength i ∧ ∃ op ∈ opcodeMap, (encode i).head? = some op

theorem ldi (a b : Byte) : Statement (.ldi a b) := ⟨rfl, 0x82, by decide, rfl⟩
theorem prn (a : Byte) : Statement (.prn a) := ⟨rfl, 0x47, by decide, rfl⟩
theorem mul (a b : Byte) : Statement (.mul a b) := ⟨rfl, 0xA2, by decide, rfl⟩
theorem add (a b : Byte) : Statement (.add a b) := ⟨rfl, 0xA0, by decide, rfl⟩
theorem push (a : Byte) : Statement (.push a) := ⟨rfl, 0x45, by decide, rfl⟩
theorem pop (a : Byte) : Statement (.pop a) := ⟨rfl, 0x46, by decide, rfl⟩
theorem call (a : Byte) : Statement (.call a) := ⟨rfl, 0x50, by decide, rfl⟩
theorem ret : Statement .ret := ⟨rfl, 0x11, by decide, rfl⟩
theorem cmp (a b : Byte) : Statement (.cmp a b) := ⟨rfl, 0xA7, by decide, rfl⟩
theorem jeq (a : Byte) : Statement (.jeq a) := ⟨rfl, 0x55, by decide, rfl⟩
theorem jne (a : Byte) : Statement (.jne a) := ⟨rfl, 0x56, by decide, rfl⟩
theorem jmp (a : Byte) : Statement (.jmp a) := ⟨rfl, 0x54, by decide, rfl⟩
theorem hlt : Statement .hlt := ⟨rfl, 0x01, by decide, rfl⟩

end Sys2Proof.Laws.EncodingShape
end

