-- ==== Sys2Proof/Tests/Slice0.lean ====
section
/-! SUPPORT. The model's own tests, each expected value taken from the vectors of spec/95_test_vectors.md (V<n>), and a
witness `wit_<Name>` for the hypotheses of each statement of Certificates/Slice0/Obligations.lean. -/

namespace Sys2Proof.Tests

open Sys2Proof.Machine

/-- The next state of an outcome, if it is one. -/
def nextState : Host.Outcome State Fault Refusal → Option State
  | .next t => some t
  | .fault _ => none
  | .refused _ => none

/-- The reset state with a pc, an sp, and the first registers. -/
def start (pc sp : Nat) (x0 x1 : Byte) : State :=
  { State.reset with pc := pc, sp := sp, x := #v[x0, x1, 0, 0, 0, 0, 0, 0] }

/-- The reset state with three bytes at `pc`. -/
def code (pc : Nat) (op a b : Byte) : State := placeAtPc op a b { State.reset with pc := pc }

/-- A state with the flag E set or clear. -/
def withE (e : Bool) (s : State) : State := { s with fl := { E := e, G := false, L := false } }

/-! ## Ill-formed instructions are refused by the check, one for each register operand (rules R61, R62) -/

theorem test_illFormed : ([.ldi 8 0, .prn 8, .mul 8 0, .mul 0 8, .add 8 0, .add 0 8, .push 8, .pop 255, .call 8,
    .cmp 8 0, .cmp 0 8, .jeq 8, .jne 8, .jmp 8] : List Instr).all (fun i => !i.wellFormed) = true := by decide
theorem test_wellFormed : ([.ldi 7 255, .prn 7, .mul 7 7, .add 7 7, .push 7, .pop 7, .call 7, .ret, .cmp 7 7, .jeq 7,
    .jne 7, .jmp 7, .hlt] : List Instr).all Instr.wellFormed = true := by decide

/-! ## Decoding, each word written out in binary from rule R64 -/

theorem test_decode_hlt : decodeBytes [0b00000001, 0xFF, 0xFF] = .ok .hlt := by decide
theorem test_decode_ret : decodeBytes [0b00010001, 0xFF, 0xFF] = .ok .ret := by decide
theorem test_decode_push : decodeBytes [0b01000101, 0b00000110, 0xFF] = .ok (.push 6) := by decide
theorem test_decode_pop : decodeBytes [0b01000110, 0b00000001, 0xFF] = .ok (.pop 1) := by decide
theorem test_decode_prn : decodeBytes [0b01000111, 0b00000111, 0xFF] = .ok (.prn 7) := by decide
theorem test_decode_call : decodeBytes [0b01010000, 0b00000010, 0xFF] = .ok (.call 2) := by decide
theorem test_decode_jmp : decodeBytes [0b01010100, 0b00000011, 0xFF] = .ok (.jmp 3) := by decide
theorem test_decode_jeq : decodeBytes [0b01010101, 0b00000100, 0xFF] = .ok (.jeq 4) := by decide
theorem test_decode_jne : decodeBytes [0b01010110, 0b00000101, 0xFF] = .ok (.jne 5) := by decide
theorem test_decode_ldi : decodeBytes [0b10000010, 0b00000001, 0b11001000] = .ok (.ldi 1 200) := by decide
theorem test_decode_add : decodeBytes [0b10100000, 0b00000001, 0b00000010] = .ok (.add 1 2) := by decide
theorem test_decode_mul : decodeBytes [0b10100010, 0b00000011, 0b00000100] = .ok (.mul 3 4) := by decide
theorem test_decode_cmp : decodeBytes [0b10100111, 0b00000101, 0b00000110] = .ok (.cmp 5 6) := by decide
/-- V5 to V8: bytes that are no opcode, 0x83 among them although its bits look well formed. -/
theorem test_decode_unknown : [0x00, 0x02, 0x83, 0xFF].all (fun op => (decode op 0 0).toOption.isNone) = true := by
  decide
/-- An opcode-table word with its first byte least significant. -/
theorem test_decodeTableWord : decodeTableWord 24 0xC80182 = some (.ldi 1 200) ∧
    decodeTableWord 8 0xC80182 = some (.ldi 0 0) ∧ decodeTableWord 16 0x0083 = none := by decide
/-- The placed word is the first instruction after reset, and runs. -/
theorem test_withFetchWord : nextState (step (State.reset.withFetchWord 24 0xC80182)) =
    nextState (exec (.ldi 1 200) (State.reset.withFetchWord 24 0xC80182)) := by decide
/-- The spelling of rule R70. -/
theorem test_asm : asm (.ldi 0 8) = "LDI R0, 8" ∧ asm (.mul 0 1) = "MUL R0, R1" ∧ asm .hlt = "HLT" := by decide

/-! ## The step -/

/-- V1, V2, V3, V9: the eager fetch faults at 254 to 256, before HLT and before an unknown opcode. -/
theorem test_fetch_fault :
    nextState (step { State.reset with pc := 256 }) =
      some { State.reset with pc := 256, run := .error, err := some (.outOfBounds 256) } ∧
    (nextState (step { State.reset with pc := 255, mem := [(255, 1)] })).map (·.err) =
      some (some (.outOfBounds 256)) ∧
    (nextState (step { State.reset with pc := 254, mem := [(254, 0x47)] })).map (·.err) =
      some (some (.outOfBounds 256)) := by decide
/-- V4: HLT at 253. -/
theorem test_fetch_top : nextState (step (code 253 1 0 0)) = some { code 253 1 0 0 with run := .halted } := by decide
/-- V7: UnknownOpcode(131). -/
theorem test_step_unknown :
    nextState (step (code 0 0x83 0 0)) = some { code 0 0x83 0 0 with run := .error, err := some (.unknownOpcode 131) } := by
  decide
/-- V71: no step from Halted. -/
theorem test_step_halted : nextState (step { State.reset with run := .halted }) = none := by decide
/-- Rule R201: the codes. -/
theorem test_errorCodes : [CoreError.outOfBounds (-1), .unknownOpcode 0, .invalidRegister 8,
    .unsupportedAluOperation (.other 0)].map (fun e => errorCode (errorKind e)) = [1, 2, 3, 4] := by decide

/-! ## The instructions -/

/-- V11, V14: the highest register and value; pc reaches 256. -/
theorem test_ldi : (nextState (exec (.ldi 7 255) (start 253 244 0 0))).map (fun t => (readReg 7 t, t.pc)) =
    some (255, 256) := by decide
/-- V13. -/
theorem test_ldi_badRegister : nextState (exec (.ldi 8 1) State.reset) =
    some { State.reset with run := .error, err := some (.invalidRegister 8) } := by decide
/-- V16, and the console line of decision D15. -/
theorem test_prn : (nextState (exec (.prn 0) (start 0 244 255 0))).map (fun t => (t.out, t.pc)) = some ([255], 2) ∧
    consoleLine 255 = "255" ++ Config.newline := ⟨by decide, rfl⟩
/-- V17. -/
theorem test_prn_badRegister : (nextState (exec (.prn 200) State.reset)).map (fun t => (t.out, t.err)) =
    some ([], some (.invalidRegister 200)) := by decide
/-- V20, V21: wrap, and a source that is also the destination. -/
theorem test_add : (nextState (exec (.add 0 1) (start 0 244 200 100))).map (fun t => (readReg 0 t, readReg 1 t, t.pc)) =
      some (44, 100, 3) ∧
    (nextState (exec (.add 0 0) (start 0 244 128 1))).map (readReg 0) = some 0 := by decide
/-- V23, V24: operand A is checked first. -/
theorem test_add_badRegister :
    (nextState (exec (.add 1 9) State.reset)).map (·.err) = some (some (.invalidRegister 9)) ∧
    (nextState (exec (.add 9 10) State.reset)).map (·.err) = some (some (.invalidRegister 9)) := by decide
/-- V25, V28. -/
theorem test_mul : (nextState (exec (.mul 0 1) (start 0 244 8 9))).map (readReg 0) = some 72 ∧
    (nextState (exec (.mul 0 1) (start 0 244 255 255))).map (readReg 0) = some 1 := by decide
/-- V31. -/
theorem test_mul_badRegister : (nextState (exec (.mul 0 8) State.reset)).map (·.err) =
    some (some (.invalidRegister 8)) := by decide
/-- V32, V34, V36: L, E and G, unsigned; the packed view. -/
theorem test_cmp : (nextState (exec (.cmp 0 1) (start 0 244 5 9))).map (fun t => (flByte t.fl, t.pc)) = some (4, 3) ∧
    (nextState (exec (.cmp 0 1) (start 0 244 7 7))).map (fun t => flByte t.fl) = some 1 ∧
    (nextState (exec (.cmp 0 1) (start 0 244 255 0))).map (fun t => flByte t.fl) = some 2 := by decide
/-- V39: the flags are kept on an error. -/
theorem test_cmp_badRegister :
    (nextState (exec (.cmp 0 8) { State.reset with fl := ⟨false, true, false⟩ })).map (fun t => (flByte t.fl, t.err)) =
      some (2, some (.invalidRegister 8)) := by decide
/-- V40, V44: the first push writes 243 (conflict C1); a push at 256 writes 255. -/
theorem test_push : nextState (exec (.push 0) (start 0 244 44 0)) =
      some { start 2 243 44 0 with mem := [(243, 44)] } ∧
    nextState (exec (.push 1) (start 0 256 0 3)) = some { start 2 255 0 3 with mem := [(255, 3)] } := by decide
/-- V42, V43: a push at 0; the register check comes first. -/
theorem test_push_errors :
    nextState (exec (.push 0) (start 0 0 9 0)) =
      some { start 0 0 9 0 with run := .error, err := some (.outOfBounds (-1)) } ∧
    (nextState (exec (.push 9) (start 0 0 9 0))).map (·.err) = some (some (.invalidRegister 9)) := by decide
/-- V45, V47: the cell is not cleared; sp reaches 256. -/
theorem test_pop : nextState (exec (.pop 1) { start 0 243 0 0 with mem := [(243, 44)] }) =
      some { start 2 244 0 44 with mem := [(243, 44)] } ∧
    nextState (exec (.pop 0) { start 0 255 0 0 with mem := [(255, 6)] }) =
      some { start 2 256 6 0 with mem := [(255, 6)] } := by decide
/-- V48, V49. -/
theorem test_pop_errors :
    (nextState (exec (.pop 0) (start 0 256 0 0))).map (·.err) = some (some (.outOfBounds 256)) ∧
    (nextState (exec (.pop 8) State.reset)).map (·.err) = some (some (.invalidRegister 8)) := by decide
/-- V50, V53: the return address, at the highest pc too. -/
theorem test_call : nextState (exec (.call 1) (start 3 244 0 8)) =
      some { start 8 243 0 8 with mem := [(243, 5)] } ∧
    nextState (exec (.call 0) (start 253 244 0 0)) = some { start 0 243 0 0 with mem := [(243, 255)] } := by decide
/-- V51. -/
theorem test_call_error : nextState (exec (.call 1) (start 3 0 0 8)) =
    some { start 3 0 0 8 with run := .error, err := some (.outOfBounds (-1)) } := by decide
/-- V54, V55. -/
theorem test_ret : nextState (exec .ret { start 9 243 0 0 with mem := [(243, 5)] }) =
      some { start 5 244 0 0 with mem := [(243, 5)] } ∧
    nextState (exec .ret (start 9 244 0 0)) = some (start 0 245 0 0) := by decide
/-- V56. -/
theorem test_ret_error : (nextState (exec .ret (start 9 256 0 0))).map (fun t => (t.err, t.pc)) =
    some (some (.outOfBounds 256), 9) := by decide
/-- V58, V59. -/
theorem test_jmp : nextState (exec (.jmp 0) (start 9 244 255 0)) = some (start 255 244 255 0) ∧
    (nextState (exec (.jmp 8) State.reset)).map (·.err) = some (some (.invalidRegister 8)) := by decide
/-- V60, V61. -/
theorem test_jeq : (nextState (exec (.jeq 0) (withE true (start 10 244 20 0)))).map (·.pc) = some 20 ∧
    (nextState (exec (.jeq 0) (withE false (start 10 244 20 0)))).map (·.pc) = some 12 := by decide
/-- V64: checked though not taken. -/
theorem test_jeq_badRegister : (nextState (exec (.jeq 8) State.reset)).map (·.err) =
    some (some (.invalidRegister 8)) := by decide
/-- V65, V66: taken on the reset flags (conflict C2). -/
theorem test_jne : (nextState (exec (.jne 0) (start 24 244 15 0))).map (·.pc) = some 15 ∧
    (nextState (exec (.jne 0) (withE true (start 24 244 15 0)))).map (·.pc) = some 26 := by decide
/-- V69: checked though not taken. -/
theorem test_jne_badRegister : (nextState (exec (.jne 9) (withE true State.reset))).map (·.err) =
    some (some (.invalidRegister 9)) := by decide
/-- V70. -/
theorem test_hlt : nextState (exec .hlt (start 11 244 0 0)) = some { start 11 244 0 0 with run := .halted } := by decide

/-! ## The host's side -/

/-- Rule R71: a literal with a comment, a blank line, a comment-only line, and lines that are neither. -/
theorem test_readLine : readLine "10000010 # LDI".toList = .byte 0x82 ∧ readLine "".toList = .skipped ∧
    readLine "# start".toList = .skipped ∧ readLine "1000001".toList = .malformed ∧
    readLine "10000012".toList = .malformed := by decide
/-- Rules R213, R214. -/
theorem test_fileNotFound : (match bootFile none with | .ok _ => none | .error e => bootExitCode e) = some 2 := by decide

/-! ## Witnesses: every hypothesis of a statement can be met, clause by clause at a boundary value -/

theorem wit_DecodeOfEncodedInstruction : 2 ≤ ([0, 0] : List Byte).length := by decide
theorem wit_EncodeOfDecodedBytes : decode 0xA7 255 255 = .ok (.cmp 255 255) := by decide
theorem wit_OpcodeBitsGiveLengthAndClass : decode 0x11 0 0 = .ok .ret ∧ decode 0x45 9 0 = .ok (.push 9) ∧
    decode 0xA0 0 1 = .ok (.add 0 1) := by decide
theorem wit_DecodeAcceptsExactlyTheThirteenOpcodes : (0xA7 : Byte) ∈ opcodeMap ∧ (0x00 : Byte) ∉ opcodeMap := by decide
theorem wit_UnusedOperandBytesAreIgnored : decode 0x01 3 4 = .ok .hlt ∧ instrLength .hlt = 1 ∧
    decode 0x56 3 4 = .ok (.jne 3) ∧ instrLength (.jne 3) = 2 := by decide
theorem wit_StepRunsTheDecodedInstruction : (code 253 0x82 7 255).run = .running ∧
    memRead 253 (code 253 0x82 7 255) = .ok 0x82 ∧ memRead (253 + 1) (code 253 0x82 7 255) = .ok 7 ∧
    memRead (253 + 2) (code 253 0x82 7 255) = .ok 255 ∧ decode 0x82 7 255 = .ok (.ldi 7 255) := by decide
theorem wit_FetchReadsThreeBytesOrFaults : State.reset.run = .running ∧ (start 253 0 0 0).pc ≤ 253 ∧
    254 ≤ (start 254 0 0 0).pc ∧ (start 256 0 0 0).pc ≤ 256 ∧ (start 256 0 0 0).run = .running := by decide
theorem wit_HltOpcodeHaltsTheRun : (code 253 1 0 0).run = .running ∧ (code 253 1 0 0).pc ≤ 253 ∧
    memRead ((code 253 1 0 0).pc : Int) (code 253 1 0 0) = .ok 0x01 := by decide
theorem wit_UnknownOpcodeEndsTheRun : (code 253 0xFF 0 0).run = .running ∧ (code 253 0xFF 0 0).pc ≤ 253 ∧
    memRead ((code 253 0xFF 0 0).pc : Int) (code 253 0xFF 0 0) = .ok 0xFF ∧ (0xFF : Byte) ∉ opcodeMap := by decide
theorem wit_HaltedAndErrorTakeNoStep : (haltRun State.reset).run = .halted ∧
    (raiseError (.unknownOpcode 0) State.reset).run = .error := by decide
theorem wit_RunningStateHasExactlyOneNextState : State.reset.run = .running ∧ (haltRun State.reset).run ≠ .running := by
  decide
/-- One state for each line of rule R205's order, and one without an error. -/
theorem wit_StepReportsTheFirstErrorInOrder :
    firstError (start 254 0 0 0) = some (.outOfBounds 256) ∧ firstError (code 0 1 9 9) = none ∧
    firstError (code 0 0 9 9) = some (.unknownOpcode 0) ∧ firstError (code 0 0xA0 9 10) = some (.invalidRegister 9) ∧
    firstError (code 0 0xA0 7 10) = some (.invalidRegister 10) ∧
    firstError { code 0 0x45 9 0 with sp := 0 } = some (.invalidRegister 9) ∧
    firstError { code 0 0x45 7 0 with sp := 0 } = some (.outOfBounds (-1)) ∧
    firstError { code 0 0x11 9 0 with sp := 256 } = some (.outOfBounds 256) ∧
    firstError (code 253 0x45 7 0) = none ∧ (code 253 0x45 7 0).run = .running := by decide
theorem wit_ErrorStepCommitsNothing : (nextState (step State.reset)).map (·.run) = some .error := by decide
theorem wit_NextProgramCounter : State.reset.run ≠ .error ∧ (nextState (exec (.jne 7) State.reset)).isSome = true ∧
    (nextState (exec (.ldi 8 0) State.reset)).map (·.run) = some .error := by decide
/-- A step that stays in Running, one that halts, one that ends in Error, and a state with no step. -/
theorem wit_RunStateTransitions :
    (nextState (step (code 0 0x82 0 1))).map (·.run) = some .running ∧
    fetchDecode (code 0 1 0 0) = .ok .hlt ∧ (nextState (step (code 0 1 0 0))).map (·.run) = some .halted ∧
    (nextState (step State.reset)).map (·.run) = some .error ∧ (haltRun State.reset).run ≠ .running := by decide
theorem wit_MemReadReturnsTheByteOrOutOfBounds : memRead 255 { State.reset with mem := [(255, 6)] } = .ok 6 ∧
    memRead (-1) State.reset = .error (.outOfBounds (-1)) ∧
    memRead 256 State.reset = .error (.outOfBounds 256) := by decide
theorem wit_MemWriteChangesOneByteOrOutOfBounds : memWrite 255 6 State.reset = .ok { State.reset with mem := [(255, 6)] } ∧
    memWrite 0 0 State.reset = .ok State.reset ∧
    memWrite (-1) 6 State.reset = .error (.outOfBounds (-1)) ∧
    memWrite 256 6 State.reset = .error (.outOfBounds 256) := by decide
/-- A PUSH onto the next opcode byte, onto its operand A and onto its operand B, and the same three
by a CALL to address 3. -/
theorem wit_NextFetchSeesTheStore : (7 : Byte).toNat < 8 ∧
    (nextState (exec (.push 0) (start 3 6 1 0))).map (fun t => (t.pc, pushAddr (start 3 6 1 0))) = some (5, 5) ∧
    (nextState (exec (.push 0) (start 3 7 1 0))).map (fun t => (t.pc + 1, pushAddr (start 3 7 1 0))) = some (6, 6) ∧
    (nextState (exec (.push 0) (start 3 8 1 0))).map (fun t => (t.pc + 2, pushAddr (start 3 8 1 0))) = some (7, 7) ∧
    (nextState (exec (.call 0) (start 3 4 3 0))).map (fun t => (t.pc, pushAddr (start 3 4 3 0))) = some (3, 3) ∧
    (nextState (exec (.call 0) (start 3 5 3 0))).map (fun t => (t.pc + 1, pushAddr (start 3 5 3 0))) = some (4, 4) ∧
    (nextState (exec (.call 0) (start 3 6 3 0))).map (fun t => (t.pc + 2, pushAddr (start 3 6 3 0))) = some (5, 5) := by
  decide
theorem wit_RegisterOperandsAreTheWholeByte : reg 7 = .ok 7 ∧ reg 8 = .error (.invalidRegister 8) ∧
    (Instr.cmp 7 8).regOperands.find? (fun b => decide (8 ≤ b.toNat)) = some 8 ∧
    (Instr.jeq 255).regOperands.find? (fun b => decide (8 ≤ b.toNat)) = some 255 := by decide
/-- The register clauses of LdiResult, PrnResult, AddResult, MulResult, CmpResult and JmpResult, whose only hypotheses
are these, on any state. -/
theorem wit_registerClauses : (0 : Byte).toNat < 8 ∧ (7 : Byte).toNat < 8 ∧ 8 ≤ (8 : Byte).toNat ∧
    8 ≤ (255 : Byte).toNat := by decide
theorem wit_LdiResult : (nextState (exec (.ldi 7 255) State.reset)).map (·.run) = some .running ∧
    (nextState (exec (.ldi 8 255) State.reset)).map (·.run) = some .error := by decide
theorem wit_PrnResult : (nextState (exec (.prn 7) State.reset)).map (·.out) = some [0] ∧
    (nextState (exec (.prn 8) State.reset)).map (·.run) = some .error := by decide
theorem wit_AddResult : (nextState (exec (.add 7 7) State.reset)).map (·.run) = some .running ∧
    (nextState (exec (.add 8 0) State.reset)).map (·.err) = some (some (.invalidRegister 8)) ∧
    (nextState (exec (.add 7 8) State.reset)).map (·.err) = some (some (.invalidRegister 8)) := by decide
theorem wit_MulResult : (nextState (exec (.mul 7 7) State.reset)).map (·.run) = some .running ∧
    (nextState (exec (.mul 8 0) State.reset)).map (·.err) = some (some (.invalidRegister 8)) ∧
    (nextState (exec (.mul 7 8) State.reset)).map (·.err) = some (some (.invalidRegister 8)) := by decide
theorem wit_CmpResult : (nextState (exec (.cmp 7 0) State.reset)).map (·.fl) = some ⟨true, false, false⟩ ∧
    (nextState (exec (.cmp 8 0) State.reset)).map (·.err) = some (some (.invalidRegister 8)) ∧
    (nextState (exec (.cmp 7 8) State.reset)).map (·.err) = some (some (.invalidRegister 8)) := by decide
theorem wit_PushResult : (7 : Byte).toNat < 8 ∧ 1 ≤ (start 0 1 0 0).sp ∧ (start 0 256 0 0).sp ≤ 256 ∧
    (nextState (exec (.push 7) (start 0 1 0 0))).map (·.sp) = some 0 ∧
    (nextState (exec (.push 7) (start 0 256 0 0))).map (·.sp) = some 255 ∧ 8 ≤ (8 : Byte).toNat ∧
    (start 0 0 0 0).sp = 0 := by decide
theorem wit_PopResult : (7 : Byte).toNat < 8 ∧ (start 0 255 0 0).sp ≤ 255 ∧
    (nextState (exec (.pop 7) (start 0 255 0 0))).map (·.sp) = some 256 ∧
    (nextState (exec (.pop 7) (start 0 0 0 0))).map (·.sp) = some 1 ∧ 8 ≤ (8 : Byte).toNat ∧
    (start 0 256 0 0).sp = 256 := by decide
theorem wit_CallResult : (7 : Byte).toNat < 8 ∧ (start 253 1 0 0).pc ≤ 253 ∧ 1 ≤ (start 253 1 0 0).sp ∧
    (start 253 256 0 0).sp ≤ 256 ∧ (nextState (exec (.call 7) (start 253 256 0 0))).map (·.sp) = some 255 ∧
    8 ≤ (8 : Byte).toNat ∧ (start 0 0 0 0).sp = 0 := by decide
theorem wit_RetResult : (start 0 255 0 0).sp ≤ 255 ∧ (nextState (exec .ret (start 0 255 0 0))).map (·.sp) = some 256 ∧
    (start 0 256 0 0).sp = 256 := by decide
theorem wit_JmpResult : (nextState (exec (.jmp 0) (start 3 0 254 0))).map (·.pc) = some 254 ∧
    (nextState (exec (.jmp 8) State.reset)).map (·.run) = some .error := by decide
theorem wit_JeqResult : (7 : Byte).toNat < 8 ∧ (withE true State.reset).fl.E = true ∧ State.reset.fl.E = false ∧
    8 ≤ (8 : Byte).toNat := by decide
theorem wit_JneResult : (7 : Byte).toNat < 8 ∧ State.reset.fl.E = false ∧ (withE true State.reset).fl.E = true ∧
    8 ≤ (8 : Byte).toNat := by decide
theorem wit_AluComputesModulo256 : AluSelect.other 0 ≠ .add ∧ AluSelect.other 0 ≠ .mul := by decide
theorem wit_NoStepRaisesUnsupportedAluOperation : State.reset.err = none ∧ (nextState (step State.reset)).isSome = true ∧
    (nextState (step (code 0 0xA2 7 7))).map (·.err) = some none := by decide
theorem wit_ComparisonSetsExactlyOneFlag : (255 : Byte).toNat = (255 : Byte).toNat ∧
    (255 : Byte).toNat > (254 : Byte).toNat ∧ (0 : Byte).toNat < (1 : Byte).toNat := by decide
theorem wit_OnlyCmpWritesTheFlags : (∀ a b, Instr.jeq 7 ≠ .cmp a b) ∧
    (nextState (exec (.jeq 7) State.reset)).isSome = true := ⟨by simp, by decide⟩
theorem wit_OnlyJeqAndJneReadTheFlags : (∀ a, Instr.cmp 7 0 ≠ .jeq a) ∧ (∀ a, Instr.cmp 7 0 ≠ .jne a) ∧
    (nextState (exec (.cmp 7 0) State.reset)).map (·.run) = some .running ∧
    (∀ a, Instr.hlt ≠ .jeq a) ∧ (∀ a, Instr.hlt ≠ .jne a) ∧ (∀ a b, Instr.hlt ≠ .cmp a b) ∧
    (nextState (exec .hlt State.reset)).isSome = true :=
  ⟨by simp, by simp, by decide, by simp, by simp, by simp, by decide⟩
theorem wit_OnlyStackInstructionsMoveSp : (nextState (exec (.push 7) (start 0 1 0 0))).map (·.sp) = some 0 ∧
    (nextState (exec .ret (start 0 255 0 0))).map (·.sp) = some 256 ∧
    (nextState (exec (.pop 8) (start 0 255 0 0))).map (·.sp) = some 255 := by decide
theorem wit_OnlyPrnEmits : (nextState (exec (.prn 0) (start 0 0 255 0))).map (·.out) = some [255] ∧
    (nextState (exec (.prn 8) (start 0 0 255 0))).map (·.out) = some [] := by decide
theorem wit_OnlyPushAndCallWriteMemory : (∀ a, Instr.pop 7 ≠ .push a) ∧ (∀ a, Instr.pop 7 ≠ .call a) ∧
    (nextState (exec (.pop 7) State.reset)).isSome = true := ⟨by simp, by simp, by decide⟩
theorem wit_PushAndCallStoreOnlyAtThePushAddress : (nextState (exec (.call 0) (start 0 1 9 0))).map
    (fun t => (memRead 0 t).toOption) = some (some 2) ∧ (255 : Int) ≠ pushAddr (start 0 1 9 0) := by decide
theorem wit_OnlyTheDestinationRegisterChanges : (nextState (exec (.ldi 7 255) State.reset)).map (readReg 0) = some 0 ∧
    (∀ a b, Instr.ldi 7 255 = .ldi a b ∨ Instr.ldi 7 255 = .add a b ∨ Instr.ldi 7 255 = .mul a b ∨
      Instr.ldi 7 255 = .pop a → a.toNat ≠ (0 : Fin 8).val) := by
  refine ⟨by decide, fun a b h => ?_⟩
  simp only [Instr.ldi.injEq, reduceCtorEq, or_false] at h
  rw [← h.1]
  decide
theorem wit_RunStateChangesOnlyByHltOrError : (nextState (exec .hlt State.reset)).map (·.run) = some .halted ∧
    (nextState (exec (.pop 8) State.reset)).map (·.run) = some .error ∧
    (nextState (exec (.pop 7) State.reset)).map (·.run) = some .running := by decide
theorem reset_inv : State.reset.Inv :=
  ⟨by decide, by decide, by decide, by decide, by decide, fun e h => by simp [State.reset] at h⟩
theorem wit_StepKeepsTheInvariant : State.reset.Inv ∧ (nextState (step State.reset)).isSome = true :=
  ⟨reset_inv, by decide⟩
theorem wit_RunsKeepTheInvariant : State.reset.Inv ∧ (runFor 1 State.reset).run = .error := ⟨reset_inv, by decide⟩
theorem wit_LoadPlacesTheProgramFromAddressZero : (List.replicate 256 (1 : Byte)).length ≤ 256 ∧
    257 ≤ (List.replicate 257 (1 : Byte)).length :=
  ⟨by rw [List.length_replicate], by rw [List.length_replicate]⟩
theorem wit_LoadedProgramMeetsTheInvariant : bootProgram [0x82, 0, 8] =
    .ok { State.reset with mem := [(0, 0x82), (2, 8)] } := by decide
theorem wit_CanonicalMemoriesThatReadAlikeAreEqual : Memory.wf [(0, 1), (255, 6)] := by decide
theorem wit_ExitCodeOfTheRun : State.reset.run = .running ∧ (haltRun State.reset).run = .halted ∧
    (raiseError (.unknownOpcode 0) State.reset).err = some (.unknownOpcode 0) ∧
    (raiseError (.outOfBounds 256) State.reset).run = .error ∧
    (raiseError (.invalidRegister 8) State.reset).err = some (.invalidRegister 8) := by decide
theorem wit_PushThenPopRestoresRegisterAndSp : (7 : Byte).toNat < 8 ∧ 1 ≤ (start 0 1 0 0).sp ∧
    (start 0 256 0 0).sp ≤ 256 := by decide
theorem wit_CallThenRetResumesAfterTheCall : (7 : Byte).toNat < 8 ∧ (start 253 1 0 0).pc ≤ 253 ∧
    1 ≤ (start 253 1 0 0).sp ∧ (start 253 256 0 0).sp ≤ 256 := by decide
theorem wit_CmpDecidesTheBranches : (0 : Byte).toNat < 8 ∧ (1 : Byte).toNat < 8 ∧
    readReg 0 (start 0 0 9 9) = readReg 1 (start 0 0 9 9) ∧
    readReg 0 (start 0 0 9 8) ≠ readReg 1 (start 0 0 9 8) := by decide
theorem wit_LdiThenPrnEmitsTheImmediate : (7 : Byte).toNat < 8 := by decide
/-- A register form, PUSH at both ends of its range of sp, RET at both ends of its, and HLT. -/
theorem wit_EveryInstructionCompletesWhereNoErrorApplies :
    (∀ k ∈ (Instr.add 0 7).regOperands, k.toNat < 8) ∧ (∀ k ∈ (Instr.push 7).regOperands, k.toNat < 8) ∧
    (1 ≤ (start 0 1 0 0).sp ∧ (start 0 1 0 0).sp ≤ 256) ∧ (1 ≤ (start 0 256 0 0).sp ∧ (start 0 256 0 0).sp ≤ 256) ∧
    (∀ k ∈ Instr.ret.regOperands, k.toNat < 8) ∧ (start 0 0 0 0).sp ≤ 255 ∧ (start 0 255 0 0).sp ≤ 255 ∧
    (nextState (exec .ret (start 9 255 0 0))).map (fun t => (t.pc, t.sp, t.run, t.err)) =
      some (0, 256, .running, none) ∧
    (∀ k ∈ Instr.hlt.regOperands, k.toNat < 8) := by decide

end Sys2Proof.Tests
end

/-! # Proofs of the state's family (10_state.md): the invariant and the frames

Three parts: what each state operation keeps of `State.Inv`, with the invariant of a step built from that; the
uniqueness of a canonical memory; and the frames, each read off the inversion `exec_next`. -/

/-! ## The invariant: what each operation of the state keeps -/

namespace Sys2Proof

/-- Every byte of the opcode map decodes, whatever follows it (rule R65). -/
theorem decode_of_mem_opcodeMap {op : Byte} (a b : Byte) (h : op ∈ opcodeMap) : ∃ i, decode op a b = .ok i := by
  simp only [opcodeMap, List.mem_cons, List.not_mem_nil, or_false] at h
  rcases h with rfl | rfl | rfl | rfl | rfl | rfl | rfl | rfl | rfl | rfl | rfl | rfl | rfl <;> exact ⟨_, rfl⟩

end Sys2Proof

namespace Sys2Proof.Machine

variable {s t : State}

theorem writeReg_inv (r : Fin 8) (v : Byte) (h : s.Inv) : (writeReg r v s).Inv :=
  ⟨h.mem_wf, h.pc_le, h.sp_le, h.flags, h.err_iff, h.err_possible⟩

theorem emit_inv (v : Byte) (h : s.Inv) : (emit v s).Inv :=
  ⟨h.mem_wf, h.pc_le, h.sp_le, h.flags, h.err_iff, h.err_possible⟩

theorem storeByte_inv {a : Nat} (v : Byte) (ha : a < 256) (h : s.Inv) : (storeByte a v s).Inv :=
  ⟨storeByte_wf v h.mem_wf ha, h.pc_le, h.sp_le, h.flags, h.err_iff, h.err_possible⟩

theorem setSp_inv {v : Nat} (hv : v ≤ 256) (h : s.Inv) : (setSp v s).Inv :=
  ⟨h.mem_wf, h.pc_le, hv, h.flags, h.err_iff, h.err_possible⟩

theorem advance_inv {n : Nat} (hn : s.pc + n ≤ 256) (h : s.Inv) : (advance n s).Inv :=
  ⟨h.mem_wf, hn, h.sp_le, h.flags, h.err_iff, h.err_possible⟩

/-- A jump goes to the value of a byte, so below 256 (rule R165). -/
theorem jumpTo_inv (v : Byte) (h : s.Inv) : (jumpTo v s).Inv :=
  ⟨h.mem_wf, v.isLt.le, h.sp_le, h.flags, h.err_iff, h.err_possible⟩

theorem setFlags_inv {f : Flags} (hf : f.atMostOne = true) (h : s.Inv) : (setFlags f s).Inv :=
  ⟨h.mem_wf, h.pc_le, h.sp_le, hf, h.err_iff, h.err_possible⟩

/-- A state that meets the invariant and is not in Error has an empty record (rule R30). -/
theorem State.Inv.err_eq_none (h : s.Inv) (hr : s.run ≠ .error) : s.err = none := by
  rw [← Option.not_isSome_iff_eq_none, h.err_iff]
  exact hr

theorem haltRun_inv (hr : s.run ≠ .error) (h : s.Inv) : (haltRun s).Inv where
  mem_wf := h.mem_wf
  pc_le := h.pc_le
  sp_le := h.sp_le
  flags := h.flags
  err_iff := by simp [h.err_eq_none hr]
  err_possible := h.err_possible

theorem raiseError_inv {e : CoreError} (he : e.possible = true) (h : s.Inv) : (raiseError e s).Inv where
  mem_wf := h.mem_wf
  pc_le := h.pc_le
  sp_le := h.sp_le
  flags := h.flags
  err_iff := by simp
  err_possible := by simpa using he

/-- A comparison sets no two flags (rule R124): the byte is equal, greater or less, and never two of them. -/
theorem compareFlags_atMostOne (p q : Byte) : (compareFlags p q).atMostOne = true := by
  rcases Nat.lt_trichotomy p.toNat q.toNat with h | h | h
  · have hne : p ≠ q := fun e => h.ne (congrArg BitVec.toNat e)
    simp [Flags.atMostOne, compareFlags, hne, h.le]
  · simp [Flags.atMostOne, compareFlags, h]
  · have hne : p ≠ q := fun e => h.ne' (congrArg BitVec.toNat e)
    simp [Flags.atMostOne, compareFlags, hne, h.le]

/-! ## The errors a fetch or an instruction can raise are possible records -/

theorem possible_invalidRegister {k : Byte} (hk : 8 ≤ k.toNat) : (CoreError.invalidRegister k).possible = true := by
  simpa [CoreError.possible, namesRegister] using hk

theorem possible_unknownOpcode {op : Byte} (h : op ∉ opcodeMap) : (CoreError.unknownOpcode op).possible = true := by
  simpa [CoreError.possible] using h

/-- A lookup fails only on a byte outside the map, and by its name (rule R83). -/
theorem lookup_eq_error {op a b : Byte} {e : CoreError} (h : lookup op a b = .error e) :
    op ∉ opcodeMap ∧ e = .unknownOpcode op := by
  by_cases hop : op ∈ opcodeMap
  · obtain ⟨i, hi⟩ := decode_of_mem_opcodeMap a b hop
    rw [lookup_ok hi] at h
    cases h
  · rw [lookup_error a b hop] at h
    cases h
    exact ⟨hop, rfl⟩

/-- Where fetch and decode succeed, the three bytes are in memory (rule R81). -/
theorem pc_le_of_fetchDecode_ok {i : Instr} (hpc : s.pc ≤ 256) (h : fetchDecode s = .ok i) : s.pc ≤ 253 := by
  by_contra hgt
  rw [fetchDecode_error (by omega) hpc] at h
  cases h

theorem possible_of_fetchDecode_error {e : CoreError} (hpc : s.pc ≤ 256) (h : fetchDecode s = .error e) :
    e.possible = true := by
  rcases Nat.lt_or_ge s.pc 254 with hlt | hge
  · rw [fetchDecode_ok (by omega)] at h
    obtain ⟨hop, rfl⟩ := lookup_eq_error h
    exact possible_unknownOpcode hop
  · rw [fetchDecode_error hge hpc] at h
    cases h
    rfl

/-! ## The invariant of a step -/

/-- An instruction executed where its fetch succeeded keeps the invariant: each completed form is a composition of
state operations, and each error it raises is a possible record. -/
theorem exec_inv {i : Instr} (hs : s.Inv) (hr : s.run ≠ .error) (hpc : s.pc ≤ 253) (h : exec i s = .next t) :
    t.Inv := by
  have hsp := hs.sp_le
  have h3 : s.pc + 3 ≤ 256 := by omega
  have h2 : s.pc + 2 ≤ 256 := by omega
  cases exec_next h with
  | ldi ha => exact advance_inv h3 (writeReg_inv _ _ hs)
  | add ha hb => exact advance_inv h3 (writeReg_inv _ _ hs)
  | mul ha hb => exact advance_inv h3 (writeReg_inv _ _ hs)
  | cmp ha hb => exact advance_inv h3 (setFlags_inv (compareFlags_atMostOne _ _) hs)
  | prn ha => exact advance_inv h2 (emit_inv _ hs)
  | push ha h0 h1 => exact advance_inv h2 (setSp_inv (by omega) (storeByte_inv _ (by omega) hs))
  | call ha h0 h1 => exact jumpTo_inv _ (setSp_inv (by omega) (storeByte_inv _ (by omega) hs))
  | pop ha hlt => exact advance_inv h2 (writeReg_inv _ _ (setSp_inv (by omega) hs))
  | ret hlt => exact jumpTo_inv _ (setSp_inv (by omega) hs)
  | jmp ha => exact jumpTo_inv _ hs
  | jeqTaken ha hE => exact jumpTo_inv _ hs
  | jneTaken ha hE => exact jumpTo_inv _ hs
  | jeqNot ha hE => exact advance_inv h2 hs
  | jneNot ha hE => exact advance_inv h2 hs
  | hlt => exact haltRun_inv hr hs
  | badRegister hi hk => exact raiseError_inv (possible_invalidRegister hk) hs
  | pushAtZero hi h0 => exact raiseError_inv rfl hs
  | pushAbove hi hgt => omega
  | popAtTop hi hge =>
    have htop : s.sp = 256 := by omega
    exact raiseError_inv (by rw [htop]; rfl) hs

/-- Settles O49: a step is an executed instruction or an error of the fetch, and both keep the invariant. -/
theorem stepKeepsTheInvariant : Obligations.StepKeepsTheInvariant := by
  intro s t hs h
  obtain ⟨hrun, ⟨i, hf, hx⟩ | ⟨e, hf, rfl⟩⟩ := step_next h
  · exact exec_inv hs (by simp [hrun]) (pc_le_of_fetchDecode_ok hs.pc_le hf) hx
  · exact raiseError_inv (possible_of_fetchDecode_error hs.pc_le hf) hs

/-! ## A canonical memory is determined by what it reads -/

theorem Memory.read_cons_self (c : Host.Cell) (m : List Host.Cell) : Memory.read (c :: m) c.1 = c.2 := by
  simp [Memory.read]

theorem Memory.read_cons_of_ne {c : Host.Cell} {a : Nat} (m : List Host.Cell) (h : c.1 ≠ a) :
    Memory.read (c :: m) a = Memory.read m a := by
  simp [Memory.read, h]

theorem Memory.read_eq_unlisted {m : List Host.Cell} {a : Nat} (h : ∀ c ∈ m, c.1 ≠ a) :
    Memory.read m a = Memory.unlisted := by
  induction m with
  | nil => rfl
  | cons c rest ih =>
    obtain ⟨hc, hrest⟩ := List.forall_mem_cons.mp h
    rw [Memory.read_cons_of_ne rest hc, ih hrest]

/-- Below its first address a memory of rising addresses lists nothing. -/
theorem Memory.read_of_lt_head {d : Host.Cell} {m : List Host.Cell} {a : Nat} (hm : Memory.wf (d :: m))
    (h : a < d.1) : Memory.read (d :: m) a = Memory.unlisted := by
  have hrise : ∀ e ∈ m, d.1 < e.1 := (List.pairwise_cons.mp hm.1).1
  refine Memory.read_eq_unlisted (List.forall_mem_cons.mpr ⟨h.ne', fun e he => ?_⟩)
  exact (h.trans (hrise e he)).ne'

theorem Memory.wf_tail {c : Host.Cell} {m : List Host.Cell} (h : Memory.wf (c :: m)) : Memory.wf m :=
  ⟨h.1.of_cons, fun d hd => h.2 d (List.mem_cons_of_mem c hd)⟩

theorem Memory.wf_head_ne {c : Host.Cell} {m : List Host.Cell} (h : Memory.wf (c :: m)) : c.2 ≠ Memory.unlisted :=
  (h.2 c List.mem_cons_self).2

/-- Of two canonical memories that read alike at the first's lowest address, the second begins no higher: the first
lists a nonzero byte there. -/
theorem Memory.head_le_of_read_eq {c d : Host.Cell} {m m' : List Host.Cell} (hm : Memory.wf (c :: m))
    (hm' : Memory.wf (d :: m')) (h : Memory.read (c :: m) c.1 = Memory.read (d :: m') c.1) : d.1 ≤ c.1 := by
  by_contra hlt
  rw [Memory.read_cons_self, Memory.read_of_lt_head hm' (by omega)] at h
  exact Memory.wf_head_ne hm h

/-- The tail of a canonical memory reads as the whole does, but nothing at the head's address. -/
theorem Memory.read_tail {c : Host.Cell} {m : List Host.Cell} (h : Memory.wf (c :: m)) (a : Nat) :
    Memory.read m a = if c.1 = a then Memory.unlisted else Memory.read (c :: m) a := by
  split
  · next hca =>
    have hrise : ∀ d ∈ m, c.1 < d.1 := (List.pairwise_cons.mp h.1).1
    exact Memory.read_eq_unlisted fun d hd => hca ▸ (hrise d hd).ne'
  · next hca => rw [Memory.read_cons_of_ne m hca]

theorem Memory.eq_nil_of_read_eq_unlisted {m : List Host.Cell} (hm : Memory.wf m)
    (h : ∀ a, Memory.read m a = Memory.unlisted) : m = [] := by
  cases m with
  | nil => rfl
  | cons c rest => exact absurd ((Memory.read_cons_self c rest).symm.trans (h c.1)) (Memory.wf_head_ne hm)

/-- Settles O19, by induction on the first memory: two nonempty canonical memories that read alike begin with the same
cell, and then their tails read alike. -/
theorem canonicalMemoriesThatReadAlikeAreEqual : Obligations.CanonicalMemoriesThatReadAlikeAreEqual := by
  intro m
  induction m with
  | nil => exact fun m' _ hm' h => (Memory.eq_nil_of_read_eq_unlisted hm' fun a => (h a).symm).symm
  | cons c rest ih =>
    intro m' hm hm' h
    cases m' with
    | nil => exact Memory.eq_nil_of_read_eq_unlisted hm h
    | cons d rest' =>
      have haddr : c.1 = d.1 :=
        Nat.le_antisymm (Memory.head_le_of_read_eq hm' hm (h d.1).symm) (Memory.head_le_of_read_eq hm hm' (h c.1))
      have hbyte : c.2 = d.2 := by
        rw [← Memory.read_cons_self c rest, h c.1, haddr, Memory.read_cons_self]
      have htail : rest = rest' := ih rest' (Memory.wf_tail hm) (Memory.wf_tail hm') fun a => by
        rw [Memory.read_tail hm, Memory.read_tail hm', haddr, h a]
      rw [Prod.ext haddr hbyte, htail]

/-! ## The flags are passed on unread

Two runs from states that differ in the flags alone: every checked operation answers the same, up to the flags. -/

/-- A settled handler that does the same from other flags is settled to the same state with those flags. -/
theorem settle_setFlags {f : Flags} {r r' : Except CoreError State} (hr : r' = r.map (setFlags f))
    (h : settle s r = .next t) : settle (setFlags f s) r' = .next (setFlags f t) := by
  subst hr
  cases r <;> cases h <;> rfl

/-- A register check reads no state, so a handler passes the flags on if what follows the check does. -/
theorem reg_bind_setFlags (f : Flags) (a : Byte) {k k' : Fin 8 → Except CoreError State}
    (hk : ∀ d, k' d = (k d).map (setFlags f)) : reg a >>= k' = (reg a >>= k).map (setFlags f) := by
  rcases reg_cases a with ⟨ha, hreg⟩ | ⟨_, hreg⟩ <;> rw [hreg]
  · exact hk _
  · rfl

@[simp] theorem readReg_setFlags (r : Fin 8) (f : Flags) (s : State) : readReg r (setFlags f s) = readReg r s := rfl

@[simp] theorem returnAddr_setFlags (f : Flags) (s : State) : returnAddr (setFlags f s) = returnAddr s := rfl

theorem memWrite_setFlags (f : Flags) (addr : Int) (v : Byte) (s : State) :
    memWrite addr v (setFlags f s) = (memWrite addr v s).map (setFlags f) := by
  unfold memWrite
  split <;> rfl

theorem push_setFlags (f : Flags) (v : Byte) (s : State) : push v (setFlags f s) = (push v s).map (setFlags f) := by
  unfold push pushAddr
  rw [setFlags_sp, memWrite_setFlags]
  cases memWrite ((s.sp : Int) - 1) v s <;> rfl

theorem pop_setFlags (f : Flags) (s : State) :
    pop (setFlags f s) = (pop s).map (fun p => (p.1, setFlags f p.2)) := by
  unfold pop
  rw [setFlags_sp, memRead_congr (setFlags_mem s f)]
  cases memRead (s.sp : Int) s <;> rfl

/-- Every instruction but the two branches and CMP does the same from other flags, and passes them on. -/
theorem exec_setFlags {i : Instr} (f : Flags) (hjeq : ∀ a, i ≠ .jeq a) (hjne : ∀ a, i ≠ .jne a)
    (hcmp : ∀ a b, i ≠ .cmp a b) (h : exec i s = .next t) : exec i (setFlags f s) = .next (setFlags f t) := by
  cases i with
  | ldi a b => exact settle_setFlags (reg_bind_setFlags f a fun _ => rfl) h
  | prn a => exact settle_setFlags (reg_bind_setFlags f a fun _ => rfl) h
  | jmp a => exact settle_setFlags (reg_bind_setFlags f a fun _ => rfl) h
  | add a b => exact settle_setFlags (reg_bind_setFlags f a fun _ => reg_bind_setFlags f b fun _ => rfl) h
  | mul a b => exact settle_setFlags (reg_bind_setFlags f a fun _ => reg_bind_setFlags f b fun _ => rfl) h
  | push a =>
    refine settle_setFlags (reg_bind_setFlags f a fun r => ?_) h
    rw [push_setFlags, readReg_setFlags]
    cases push (readReg r s) s <;> rfl
  | call a =>
    refine settle_setFlags (reg_bind_setFlags f a fun r => ?_) h
    rw [push_setFlags, returnAddr_setFlags]
    cases push (returnAddr s) s <;> rfl
  | pop a =>
    refine settle_setFlags (reg_bind_setFlags f a fun r => ?_) h
    rw [pop_setFlags]
    cases pop s <;> rfl
  | ret =>
    refine settle_setFlags ?_ h
    rw [pop_setFlags]
    cases pop s <;> rfl
  | hlt =>
    cases h
    rfl
  | jeq a => exact absurd rfl (hjeq a)
  | jne a => exact absurd rfl (hjne a)
  | cmp a b => exact absurd rfl (hcmp a b)

/-- CMP of two registers writes all three flags and advances (rule R125). -/
theorem exec_cmp_ok {a b : Byte} (ha : a.toNat < 8) (hb : b.toNat < 8) (s : State) :
    exec (.cmp a b) s =
      .next (advance 3 (setFlags (compareFlags (readReg ⟨a.toNat, ha⟩ s) (readReg ⟨b.toNat, hb⟩ s)) s)) := by
  simp only [exec, execCmp, reg_ok ha, reg_ok hb]
  rfl

/-- A CMP that raises nothing overwrites whatever flags it began with. -/
theorem exec_cmp_setFlags {a b : Byte} (f : Flags) (h : exec (.cmp a b) s = .next t) (ht : t.run ≠ .error) :
    exec (.cmp a b) (setFlags f s) = .next t := by
  cases exec_next h with
  | cmp ha hb => exact exec_cmp_ok ha hb (setFlags f s)
  | _ => exact absurd rfl ht

/-- Settles O40: CMP overwrites the flags, and what is neither CMP nor a branch passes them on. -/
theorem onlyJeqAndJneReadTheFlags : Obligations.OnlyJeqAndJneReadTheFlags := by
  intro i s t f hjeq hjne h
  refine ⟨fun hcmp => exec_setFlags f hjeq hjne hcmp h, ?_⟩
  rintro ⟨a, b, rfl⟩ ht
  exact exec_cmp_setFlags f h ht

/-! ## Frames: each instruction that changes the field has its case, every other case leaves it by computation -/

/-- Settles O41, by the cases of `exec_next`. -/
theorem onlyStackInstructionsMoveSp : Obligations.OnlyStackInstructionsMoveSp := by
  intro i s t h
  cases exec_next h with
  | @push a ha h0 h1 => exact .inr (.inl ⟨Nat.sub_add_cancel h0, a, .inl rfl⟩)
  | @call a ha h0 h1 => exact .inr (.inl ⟨Nat.sub_add_cancel h0, a, .inr rfl⟩)
  | @pop a ha hlt => exact .inr (.inr ⟨rfl, .inr ⟨a, rfl⟩⟩)
  | ret hlt => exact .inr (.inr ⟨rfl, .inl rfl⟩)
  | _ => exact .inl rfl

/-- Settles O42, by the cases of `exec_next`. -/
theorem onlyPrnEmits : Obligations.OnlyPrnEmits := by
  intro i s t h
  cases exec_next h with
  | @prn a ha => exact .inr ⟨a, ha, rfl, rfl⟩
  | _ => exact .inl rfl

theorem readReg_writeReg_of_ne {r q : Fin 8} (h : q.val ≠ r.val) (v : Byte) (s : State) :
    readReg r (writeReg q v s) = readReg r s := by
  rw [readReg_writeReg, if_neg fun e => h (congrArg Fin.val e.symm)]

/-- Settles O45, by the cases of `exec_next`: the four instructions that write a register write the one excluded. -/
theorem onlyTheDestinationRegisterChanges : Obligations.OnlyTheDestinationRegisterChanges := by
  intro i s t r h hdest
  cases exec_next h with
  | @ldi a b ha => exact readReg_writeReg_of_ne (hdest a b (.inl rfl)) _ s
  | @add a b ha hb => exact readReg_writeReg_of_ne (hdest a b (.inr (.inl rfl))) _ s
  | @mul a b ha hb => exact readReg_writeReg_of_ne (hdest a b (.inr (.inr (.inl rfl)))) _ s
  | @pop a ha hlt => exact readReg_writeReg_of_ne (hdest a 0 (.inr (.inr (.inr rfl)))) _ s
  | _ => rfl

/-- HLT has no operand to check and no stack access, so it answers the halted state alone (rules R82, R180). -/
theorem eq_haltRun_of_exec_hlt (h : exec .hlt s = .next t) : t = haltRun s := by
  cases h
  rfl

/-- An instruction other than HLT keeps the run state and the record, or enters an error from where it began. -/
theorem run_err_of_exec_ne_hlt {i : Instr} (hi : i ≠ .hlt) (h : exec i s = .next t) :
    (t.run = s.run ∧ t.err = s.err) ∨ ∃ e, t = raiseError e s := by
  cases exec_next h with
  | hlt => exact absurd rfl hi
  | badRegister _ hk => exact .inr ⟨_, rfl⟩
  | pushAtZero _ h0 => exact .inr ⟨_, rfl⟩
  | pushAbove _ hgt => exact .inr ⟨_, rfl⟩
  | popAtTop _ hge => exact .inr ⟨_, rfl⟩
  | _ => exact .inl ⟨rfl, rfl⟩

/-- Settles O46. -/
theorem runStateChangesOnlyByHltOrError : Obligations.RunStateChangesOnlyByHltOrError := by
  intro i s t h
  by_cases hi : i = .hlt
  · subst hi
    obtain rfl := eq_haltRun_of_exec_hlt h
    exact .inr (.inl ⟨rfl, rfl, rfl⟩)
  · rcases run_err_of_exec_ne_hlt hi h with ⟨hrun, herr⟩ | ⟨e, he⟩
    · exact .inl ⟨hi, hrun, herr⟩
    · exact .inr (.inr ⟨hi, e, he⟩)

/-! ## The final states and the reset state -/

theorem step_halted (h : s.run = .halted) : step s = .fault .alreadyHalted := by
  simp [step, engineStep, h]

theorem step_error (h : s.run = .error) : step s = .fault .alreadyInError := by
  simp [step, engineStep, h]

/-- Settles O11. -/
theorem haltedAndErrorTakeNoStep : Obligations.HaltedAndErrorTakeNoStep :=
  fun _ => ⟨step_halted, step_error⟩

theorem readReg_reset (r : Fin 8) : readReg r State.reset = 0 :=
  Vector.getElem_replicate r.isLt

theorem memRead_reset {n : Nat} (h : n ≤ 255) : memRead (n : Int) State.reset = .ok 0 :=
  memRead_ok h State.reset

/-- Settles O47. -/
theorem resetStateValues : Obligations.ResetStateValues :=
  ⟨readReg_reset, rfl, rfl, rfl, rfl, fun _ => memRead_reset, rfl, rfl, rfl⟩

/-- Settles O48. -/
theorem resetMeetsTheInvariant : Obligations.ResetMeetsTheInvariant where
  mem_wf := reset_mem_wf
  pc_le := by decide
  sp_le := by decide
  flags := rfl
  err_iff := by decide
  err_possible := nofun

end Sys2Proof.Machine

/-! # Proofs of the memory's family (20_memory.md): checked accesses, what an instruction does to memory, and the fetch

Every claim about an instruction goes through the memory of its answer: `exec_mem` says what that can be, `exec_push_ok`
and `exec_call_ok` what a PUSH or CALL that completes makes of it. -/

namespace Sys2Proof.Machine

variable {s t : State}

/-! ## Checked accesses -/

theorem not_inBounds {addr : Int} (h : addr < 0 ∨ 255 < addr) : ¬ inBounds addr := by
  rintro ⟨h0, h1⟩
  omega

/-- Settles O17. -/
theorem memReadReturnsTheByteOrOutOfBounds : Obligations.MemReadReturnsTheByteOrOutOfBounds := by
  refine fun addr s => ⟨?_, fun h => memRead_error (not_inBounds h) s⟩
  rintro n rfl hn
  exact memRead_ok hn s

/-- Settles O18: inside memory the write is `storeByte`, and `memRead_storeByte` says what reads after it. -/
theorem memWriteChangesOneByteOrOutOfBounds : Obligations.MemWriteChangesOneByteOrOutOfBounds := by
  refine fun addr v s => ⟨fun h0 h1 => ?_, fun h => memWrite_error (not_inBounds h) v s⟩
  obtain ⟨n, rfl⟩ := Int.eq_ofNat_of_zero_le h0
  have hn : n ≤ 255 := by omega
  exact ⟨storeByte n v s, memWrite_ok hn v s, rfl, fun b => memRead_storeByte hn v b s⟩

/-! ## What an instruction does to memory -/

/-- Where a push has room, its address is the natural number `sp - 1` (rule R141). -/
theorem pushAddr_eq (h : 1 ≤ s.sp) : pushAddr s = ((s.sp - 1 : Nat) : Int) := by
  unfold pushAddr
  omega

/-- An instruction leaves memory, or it is a PUSH or CALL with room for its push and stores one byte at `sp - 1`. -/
theorem exec_mem {i : Instr} (h : exec i s = .next t) :
    t.mem = s.mem ∨ ((∃ a, i = .push a ∨ i = .call a) ∧ 1 ≤ s.sp ∧ s.sp ≤ 256 ∧
      ∃ v, t.mem = (storeByte (s.sp - 1) v s).mem) := by
  cases exec_next h with
  | @push a ha h0 h1 => exact .inr ⟨⟨a, .inl rfl⟩, h0, h1, _, rfl⟩
  | @call a ha h0 h1 => exact .inr ⟨⟨a, .inr rfl⟩, h0, h1, _, rfl⟩
  | _ => exact .inl rfl

/-- Settles O43. -/
theorem onlyPushAndCallWriteMemory : Obligations.OnlyPushAndCallWriteMemory := by
  intro i s t hpush hcall h addr
  rcases exec_mem h with hmem | ⟨⟨a, hi | hi⟩, -⟩
  · exact memRead_congr hmem addr
  · exact absurd hi (hpush a)
  · exact absurd hi (hcall a)

/-- Settles O44: the one cell `exec_mem` allows to change is the cell at `pushAddr`. -/
theorem pushAndCallStoreOnlyAtThePushAddress : Obligations.PushAndCallStoreOnlyAtThePushAddress := by
  intro i a s t _ h addr hne
  rcases exec_mem h with hmem | ⟨-, h0, h1, v, hmem⟩
  · exact memRead_congr hmem addr
  · rw [pushAddr_eq h0] at hne
    rw [memRead_congr hmem, memRead_storeByte (by omega), if_neg hne]

/-! ## The next fetch sees the byte stored -/

/-- PUSH of a register with room on the stack (rule R143). -/
theorem exec_push_ok {a : Byte} (ha : a.toNat < 8) (h0 : 1 ≤ s.sp) (h1 : s.sp ≤ 256) :
    exec (.push a) s = .next (advance 2 (setSp (s.sp - 1) (storeByte (s.sp - 1) (readReg ⟨a.toNat, ha⟩ s) s))) := by
  simp only [exec, execPush, reg_ok ha, push_ok h0 h1, bind, Except.bind]
  rfl

/-- CALL through a register with room on the stack (rule R160). -/
theorem exec_call_ok {a : Byte} (ha : a.toNat < 8) (h0 : 1 ≤ s.sp) (h1 : s.sp ≤ 256) :
    exec (.call a) s = .next
      (jumpTo (readReg ⟨a.toNat, ha⟩ s) (setSp (s.sp - 1) (storeByte (s.sp - 1) (returnAddr s) s))) := by
  simp only [exec, execCall, reg_ok ha, push_ok h0 h1, bind, Except.bind]
  rfl

/-- A byte stored where a push stores is what that address reads. -/
theorem read_of_pushAddr_eq {n : Nat} {v : Byte} (h0 : 1 ≤ s.sp) (hmem : t.mem = (storeByte (s.sp - 1) v s).mem)
    (hn : pushAddr s = n) : Memory.read t.mem n = v := by
  have hcell : n = s.sp - 1 := by
    rw [pushAddr_eq h0] at hn
    omega
  rw [hmem, storeByte_mem, Memory.read_write, if_pos hcell]

/-- A fetch inside memory reads the byte a push stored, in each of the three places (rules R55, R81). -/
theorem fetch_reads_pushed {v : Byte} (h0 : 1 ≤ s.sp) (hmem : t.mem = (storeByte (s.sp - 1) v s).mem)
    (hpc : t.pc ≤ 253) :
    ∃ op x y, fetch t = .ok (op, x, y) ∧
      (pushAddr s = t.pc → op = v) ∧ (pushAddr s = t.pc + 1 → x = v) ∧ (pushAddr s = t.pc + 2 → y = v) :=
  ⟨_, _, _, fetch_ok hpc, read_of_pushAddr_eq h0 hmem, read_of_pushAddr_eq h0 hmem, read_of_pushAddr_eq h0 hmem⟩

/-- Settles O20: both instructions complete, and the memory of the answer is the store that the fetch then reads. -/
theorem nextFetchSeesTheStore : Obligations.NextFetchSeesTheStore := by
  intro i a v s ha h0 h1 hi
  rcases hi with ⟨rfl, rfl⟩ | ⟨rfl, rfl⟩
  · exact ⟨_, exec_push_ok ha h0 h1, fetch_reads_pushed h0 rfl⟩
  · exact ⟨_, exec_call_ok ha h0 h1, fetch_reads_pushed h0 rfl⟩

end Sys2Proof.Machine

/-! # Proofs of the encoding's family (30_encoding.md): the decoder, the encoder, and register operands

The decoder is characterised once by the encoder: `decode_eq_ok_iff` says that three bytes decode to the instruction
whose encoding they begin with. The round trips, the opcode's bit fields and the unused bytes all follow from it. -/

namespace Sys2Proof

variable {op a b : Byte} {i : Instr}

/-! ## Three bytes decode to the instruction whose encoding they begin with -/

theorem encode_length (i : Instr) : (encode i).length = instrLength i := by
  cases i <;> rfl

theorem instrLength_bounds (i : Instr) : 1 ≤ instrLength i ∧ instrLength i ≤ 3 := by
  cases i <;> simp [instrLength]

/-- Forwards by the rows of the decoder (rule R64), backwards by the rows of the encoder. -/
theorem decode_eq_ok_iff : decode op a b = .ok i ↔ encode i <+: [op, a, b] := by
  constructor
  · intro h
    rcases decode_cases op a b with ⟨rfl, hd⟩ | ⟨rfl, hd⟩ | ⟨rfl, hd⟩ | ⟨rfl, hd⟩ | ⟨rfl, hd⟩ | ⟨rfl, hd⟩ |
      ⟨rfl, hd⟩ | ⟨rfl, hd⟩ | ⟨rfl, hd⟩ | ⟨rfl, hd⟩ | ⟨rfl, hd⟩ | ⟨rfl, hd⟩ | ⟨rfl, hd⟩ | ⟨-, hd⟩ <;>
      cases hd.symm.trans h <;> exact ⟨_, rfl⟩
  · rintro ⟨rest, h⟩
    cases i <;> cases h <;> rfl

/-- Where three bytes decode, the encoding is as much of them as the instruction is long (rule R69). -/
theorem encode_eq_take (h : decode op a b = .ok i) : encode i = [op, a, b].take (instrLength i) := by
  rw [← encode_length]
  exact List.prefix_iff_eq_take.mp (decode_eq_ok_iff.mp h)

/-- The three-byte window at the head of the bytes holds the whole encoding they begin with (rules R69, R81). -/
theorem decodeBytes_of_encode_prefix {bytes : List Byte} (hlen : 3 ≤ bytes.length) (h : encode i <+: bytes) :
    decodeBytes bytes = .ok i := by
  match bytes, hlen with
  | op :: a :: b :: rest, _ =>
    have hwindow : [op, a, b] <+: op :: a :: b :: rest := ⟨rest, rfl⟩
    have hfits : (encode i).length ≤ [op, a, b].length := (encode_length i).trans_le (instrLength_bounds i).2
    exact decode_eq_ok_iff.mpr (List.prefix_of_prefix_length_le h hwindow hfits)

/-- Settles O1: an encoding has a byte at least, so with two bytes more it fills the decoder's window. -/
theorem decodeOfEncodedInstruction : Obligations.DecodeOfEncodedInstruction := by
  intro i tail htail
  obtain ⟨hpos, -⟩ := instrLength_bounds i
  have hlen : 3 ≤ (encode i ++ tail).length := by
    rw [List.length_append, encode_length]
    omega
  exact decodeBytes_of_encode_prefix hlen (List.prefix_append _ _)

/-- Settles O2. -/
theorem encodeOfDecodedBytes : Obligations.EncodeOfDecodedBytes :=
  fun _ _ _ _ => encode_eq_take

/-- Bytes that agree over an instruction's length decode alike (rule R68). -/
theorem decode_of_take_eq {op' a' b' : Byte} (h : decode op a b = .ok i)
    (hbytes : [op, a, b].take (instrLength i) = [op', a', b'].take (instrLength i)) : decode op' a' b' = .ok i := by
  rw [decode_eq_ok_iff, encode_eq_take h, hbytes]
  exact List.take_prefix _ _

/-- Settles O6. -/
theorem unusedOperandBytesAreIgnored : Obligations.UnusedOperandBytesAreIgnored := by
  intro op a b a' b' i h
  constructor
  · intro hlen
    exact decode_of_take_eq h (by rw [hlen]; rfl)
  · intro hlen
    exact decode_of_take_eq h (by rw [hlen]; rfl)

/-! ## The opcode byte -/

/-- The first byte of the encoding of what decodes is the opcode byte (rule R60). -/
theorem encode_eq_cons_of_decode (h : decode op a b = .ok i) : ∃ operands, encode i = op :: operands := by
  obtain ⟨n, hn⟩ := Nat.exists_eq_add_of_le' (instrLength_bounds i).1
  exact ⟨[a, b].take n, by rw [encode_eq_take h, hn, List.take_succ_cons]⟩

section OpcodeBits

variable {operands : List Byte} (h : encode i = op :: operands)
include h

theorem instrLength_eq_of_encode : instrLength i = 1 + op.toNat / 64 := by
  cases i <;> cases h <;> rfl

theorem opcode_bit5_iff : op.getLsbD 5 = true ↔ ∃ p q, i = .add p q ∨ i = .mul p q ∨ i = .cmp p q := by
  cases i <;> cases h
  case add p q => exact iff_of_true rfl ⟨p, q, .inl rfl⟩
  case mul p q => exact iff_of_true rfl ⟨p, q, .inr (.inl rfl)⟩
  case cmp p q => exact iff_of_true rfl ⟨p, q, .inr (.inr rfl)⟩
  all_goals exact iff_of_false (by decide) (by simp)

theorem opcode_bit4_iff :
    op.getLsbD 4 = true ↔ i = .ret ∨ ∃ p, i = .call p ∨ i = .jmp p ∨ i = .jeq p ∨ i = .jne p := by
  cases i <;> cases h
  case ret => exact iff_of_true rfl (.inl rfl)
  case call p => exact iff_of_true rfl (.inr ⟨p, .inl rfl⟩)
  case jmp p => exact iff_of_true rfl (.inr ⟨p, .inr (.inl rfl)⟩)
  case jeq p => exact iff_of_true rfl (.inr ⟨p, .inr (.inr (.inl rfl))⟩)
  case jne p => exact iff_of_true rfl (.inr ⟨p, .inr (.inr (.inr rfl))⟩)
  all_goals exact iff_of_false (by decide) (by simp)

end OpcodeBits

/-- Settles O3: each field is read off the first byte of the encoding. -/
theorem opcodeBitsGiveLengthAndClass : Obligations.OpcodeBitsGiveLengthAndClass := by
  intro op a b i h
  obtain ⟨operands, henc⟩ := encode_eq_cons_of_decode h
  exact ⟨instrLength_eq_of_encode henc, opcode_bit5_iff henc, opcode_bit4_iff henc⟩

/-- Settles O4: the statement's list is `opcodeMap` written out. -/
theorem decodeAcceptsExactlyTheThirteenOpcodes : Obligations.DecodeAcceptsExactlyTheThirteenOpcodes :=
  fun _ a b => ⟨decode_of_mem_opcodeMap a b, decode_miss a b⟩

/-- Settles O5: the bytes of each row begin with the encoding of the row's instruction. -/
theorem opcodeMapDecodesAsWritten : Obligations.OpcodeMapDecodesAsWritten := by
  intro a b
  and_intros <;> exact decode_eq_ok_iff.mpr ⟨_, rfl⟩

end Sys2Proof

namespace Sys2Proof.Machine

variable {s : State}

/-! ## The first bad register operand -/

/-- The first of some register operand bytes that names no register (rule R62). -/
abbrev firstBadRegister (operands : List Byte) : Option Byte := operands.find? (fun k => decide (8 ≤ k.toNat))

/-- A handler that begins by checking the first of its operands raises InvalidRegister of the first bad one, if the rest
of it does so for the other operands. -/
theorem settle_reg_firstBadRegister {a k : Byte} {rest : List Byte} {f : Fin 8 → Except CoreError State}
    (h : firstBadRegister (a :: rest) = some k)
    (hrest : ∀ r, firstBadRegister rest = some k → settle s (f r) = .next (raiseError (.invalidRegister k) s)) :
    settle s (reg a >>= f) = .next (raiseError (.invalidRegister k) s) := by
  rcases settle_reg a s f with ⟨ha, hok⟩ | ⟨ha, hbad⟩
  · rw [hok]
    exact hrest _ (by simpa [firstBadRegister, ha] using h)
  · have hk : a = k := by simpa [firstBadRegister, ha] using h
    rw [hbad, hk]

/-- Every instruction checks all its register operands, in order, before anything else (rules R62, R205). -/
theorem exec_firstBadRegister {i : Instr} {k : Byte} (h : firstBadRegister i.regOperands = some k) :
    exec i s = .next (raiseError (.invalidRegister k) s) := by
  cases i with
  | ret | hlt => cases h
  | ldi | prn | push | pop | call | jmp | jeq | jne => exact settle_reg_firstBadRegister h nofun
  | add | mul | cmp => exact settle_reg_firstBadRegister h fun _ hb => settle_reg_firstBadRegister hb nofun

/-- Settles O21. -/
theorem registerOperandsAreTheWholeByte : Obligations.RegisterOperandsAreTheWholeByte :=
  ⟨fun _ => reg_ok, fun _ => reg_error, fun _ _ _ => exec_firstBadRegister⟩

end Sys2Proof.Machine

/-! # Proofs of the engine's family (40_engine.md): the fetch, the step, the next pc, and runs

A step is said twice: by what the fetch answers (`fetchDecode_of_memRead`, `fetchDecode_error`), and by where it ends
(`step_ends`), from which the claims about the run state and about errors follow. -/

namespace Sys2Proof.Machine

variable {s t : State} {op a b : Byte} {i : Instr}

/-! ## What the step fetches -/

/-- The fetch answers the three bytes its three reads answer (rule R81). -/
theorem fetch_of_memRead (hop : memRead (s.pc : Int) s = .ok op) (ha : memRead ((s.pc : Int) + 1) s = .ok a)
    (hb : memRead ((s.pc : Int) + 2) s = .ok b) : fetch s = .ok (op, a, b) := by
  simp only [fetch, hop, ha, hb, bind, Except.bind, pure, Except.pure]

theorem fetchDecode_of_fetch (h : fetch s = .ok (op, a, b)) : fetchDecode s = lookup op a b := by
  simp only [fetchDecode, h, bind, Except.bind]

/-- Settles O7. -/
theorem stepRunsTheDecodedInstruction : Obligations.StepRunsTheDecodedInstruction := by
  intro s op a b i hr hop ha hb hi
  have hf : fetchDecode s = .ok i := by rw [fetchDecode_of_fetch (fetch_of_memRead hop ha hb), lookup_ok hi]
  exact step_running_ok hr hf

/-- Settles O8: up to pc 253 the addresses pc, pc+1 and pc+2 are all in memory; from 254 on the fetch fails at 256. -/
theorem fetchReadsThreeBytesOrFaults : Obligations.FetchReadsThreeBytesOrFaults := by
  refine fun s hr => ⟨fun h => ?_, fun h h' => step_running_error hr (fetchDecode_error h h')⟩
  exact ⟨_, _, _, fetch_ok h, memRead_ok (by omega) s, memRead_ok (a := s.pc + 1) (by omega) s,
    memRead_ok (a := s.pc + 2) (by omega) s⟩

/-- Where the fetch succeeds, the opcode byte looked up is the byte at pc. -/
theorem fetchDecode_of_memRead (h : s.pc ≤ 253) (hop : memRead (s.pc : Int) s = .ok op) :
    ∃ a b, fetchDecode s = lookup op a b := by
  have hread : Memory.read s.mem s.pc = op := Except.ok.inj ((memRead_ok (by omega) s).symm.trans hop)
  exact ⟨_, _, hread ▸ fetchDecode_ok h⟩

/-- Settles O9. -/
theorem hltOpcodeHaltsTheRun : Obligations.HltOpcodeHaltsTheRun := by
  intro s hr hpc hop
  obtain ⟨a, b, hf⟩ := fetchDecode_of_memRead hpc hop
  exact step_running_ok (i := .hlt) hr hf

/-- Settles O10: the statement's list is `opcodeMap` written out. -/
theorem unknownOpcodeEndsTheRun : Obligations.UnknownOpcodeEndsTheRun := by
  intro s op hr hpc hop hmiss
  obtain ⟨a, b, hf⟩ := fetchDecode_of_memRead hpc hop
  exact step_running_error hr (hf.trans (lookup_error a b hmiss))

/-! ## One next state, from Running only -/

theorem step_total (hr : s.run = .running) : ∃ t, step s = .next t := by
  cases hf : fetchDecode s with
  | ok i => exact step_running_ok hr hf ▸ exec_total i s
  | error e => exact ⟨_, step_running_error hr hf⟩

/-- No step is taken outside Running (rules R30, R91). -/
theorem step_ne_next (hr : s.run ≠ .running) (t : State) : step s ≠ .next t :=
  fun h => hr (step_next h).1

/-- Settles O12. -/
theorem runningStateHasExactlyOneNextState : Obligations.RunningStateHasExactlyOneNextState := by
  refine fun s => ⟨fun hr => ?_, fun hr ⟨t, h⟩ => step_ne_next hr t h⟩
  obtain ⟨t, h⟩ := step_total hr
  exact ⟨t, h, fun u hu => Host.Outcome.next.inj (hu.symm.trans h)⟩

/-! ## Where a step ends -/

/-- A step goes on in Running, halts at a HLT, or enters an error from the state it began in. -/
theorem step_ends (h : step s = .next t) :
    (fetchDecode s ≠ .ok .hlt ∧ t.run = .running ∧ t.err = s.err) ∨ (fetchDecode s = .ok .hlt ∧ t = haltRun s) ∨
      (fetchDecode s ≠ .ok .hlt ∧ ∃ e, t = raiseError e s) := by
  obtain ⟨hr, ⟨i, hf, hx⟩ | ⟨e, hf, rfl⟩⟩ := step_next h
  · rw [hf, ← hr, ne_eq, Except.ok.injEq]
    by_cases hi : i = .hlt
    · subst hi
      exact .inr (.inl ⟨rfl, eq_haltRun_of_exec_hlt hx⟩)
    · rcases run_err_of_exec_ne_hlt hi hx with hgo | hraise
      · exact .inl ⟨hi, hgo⟩
      · exact .inr (.inr ⟨hi, hraise⟩)
  · exact .inr (.inr ⟨by simp [hf], e, rfl⟩)

/-- Settles O14: of the three ends only an error entry is in Error, and it keeps all but the run state and record. -/
theorem errorStepCommitsNothing : Obligations.ErrorStepCommitsNothing := by
  intro s t h herr
  rcases step_ends h with ⟨-, hrun, -⟩ | ⟨-, rfl⟩ | ⟨-, e, rfl⟩
  · cases hrun.symm.trans herr
  · cases herr
  · exact ⟨rfl, rfl, rfl, rfl, rfl, rfl, e, rfl⟩

/-- Settles O16. -/
theorem runStateTransitions : Obligations.RunStateTransitions := by
  refine ⟨rfl, fun s => ⟨fun t h => ⟨(step_next h).1, ?_⟩, step_ne_next⟩⟩
  rcases step_ends h with ⟨hne, hgo⟩ | ⟨hhlt, rfl⟩ | ⟨hne, e, rfl⟩
  · exact ⟨fun hhlt => absurd hhlt hne, .inl hgo⟩
  · exact ⟨fun _ => rfl, .inr (.inl ⟨rfl, rfl, hhlt⟩)⟩
  · exact ⟨fun hhlt => absurd hhlt hne, .inr (.inr ⟨rfl, e, rfl⟩)⟩

/-! ## The next pc -/

/-- The register an operand byte names, read as the statements write it. -/
theorem getD_x_eq_readReg (ha : a.toNat < 8) (s : State) : s.x[a.toNat]?.getD 0 = readReg ⟨a.toNat, ha⟩ s := by
  simp [readReg, ha]

/-- Settles O15, by the cases of `exec_next`: an error keeps pc, and a completed instruction has not entered Error. -/
theorem nextProgramCounter : Obligations.NextProgramCounter := by
  intro i s t hs h
  cases exec_next h with
  | badRegister | pushAtZero | pushAbove | popAtTop => exact (if_pos rfl).symm
  | jmp ha | call ha => exact getD_x_eq_readReg ha s ▸ (if_neg hs).symm
  | jeqTaken ha hE => exact getD_x_eq_readReg ha s ▸ ((if_neg hs).trans (if_pos hE)).symm
  | jneTaken ha hE => exact getD_x_eq_readReg ha s ▸ ((if_neg hs).trans (if_neg (ne_true_of_eq_false hE))).symm
  | jeqNot ha hE => exact ((if_neg hs).trans (if_neg (ne_true_of_eq_false hE))).symm
  | jneNot ha hE => exact ((if_neg hs).trans (if_pos hE)).symm
  | hlt => rfl
  | _ => exact (if_neg hs).symm

/-! ## Runs -/

/-- What every step keeps, every run keeps: by induction on the number of steps (rules R88, R91). -/
theorem runFor_keeps {P : State → Prop} (hstep : ∀ s t, P s → step s = .next t → P t) (n : Nat) (hs : P s) :
    P (runFor n s) := by
  induction n generalizing s with
  | zero => exact hs
  | succ n ih =>
    unfold runFor
    split
    · next t h => exact ih (hstep s t hs h)
    · exact hs
    · exact hs

/-- Settles O50. -/
theorem runsKeepTheInvariant : Obligations.RunsKeepTheInvariant :=
  fun n _ => runFor_keeps stepKeepsTheInvariant n

end Sys2Proof.Machine

/-! # Proofs of the register and console family (41_register_io.md): LDI and PRN

What each of the two does is said once (`exec_ldi_ok`, `exec_prn_ok`); that a bad register operand is refused is
`exec_firstBadRegister`. -/

namespace Sys2Proof.Machine

/-! ## The two instructions -/

/-- LDI of a register stores the immediate byte as it is and advances (rule R100). -/
theorem exec_ldi_ok {a : Byte} (b : Byte) (ha : a.toNat < 8) (s : State) :
    exec (.ldi a b) s = .next (advance 3 (writeReg ⟨a.toNat, ha⟩ b s)) := by
  simp only [exec, execLdi, reg_ok ha]
  rfl

/-- PRN of a register emits its byte and advances (rule R101). -/
theorem exec_prn_ok {a : Byte} (ha : a.toNat < 8) (s : State) :
    exec (.prn a) s = .next (advance 2 (emit (readReg ⟨a.toNat, ha⟩ s) s)) := by
  simp only [exec, execPrn, reg_ok ha]
  rfl

/-- A byte above 7 is the first bad register operand wherever it comes first (rule R62). -/
theorem firstBadRegister_cons_of_ge {a : Byte} (operands : List Byte) (ha : 8 ≤ a.toNat) :
    firstBadRegister (a :: operands) = some a :=
  List.find?_cons_of_pos (decide_eq_true ha)

/-- Settles O22. -/
theorem ldiResult : Obligations.LdiResult :=
  fun _ b s =>
    ⟨rfl, fun ha => exec_ldi_ok b ha s, fun ha => exec_firstBadRegister (firstBadRegister_cons_of_ge [] ha)⟩

/-! ## The console -/

/-- The console shows what is emitted later after what was emitted before (rule R31). -/
theorem consoleText_append (vs ws : List Byte) : consoleText (vs ++ ws) = consoleText vs ++ consoleText ws := by
  induction vs with
  | nil => simp [consoleText]
  | cons v vs ih => simp [consoleText, ih, String.append_assoc]

theorem consoleText_singleton (v : Byte) : consoleText [v] = consoleLine v := by
  simp [consoleText]

/-- One more value emitted is one more line on the console (rule R101). -/
theorem consoleText_concat (vs : List Byte) (v : Byte) : consoleText (vs ++ [v]) = consoleText vs ++ consoleLine v := by
  rw [consoleText_append, consoleText_singleton]

/-- Settles O23. -/
theorem prnResult : Obligations.PrnResult :=
  fun _ s =>
    ⟨rfl, fun ha => ⟨exec_prn_ok ha s, consoleText_concat s.out _⟩,
      fun ha => exec_firstBadRegister (firstBadRegister_cons_of_ge [] ha)⟩

/-! ## LDI, then PRN -/

@[simp] theorem readReg_advance (r : Fin 8) (n : Nat) (s : State) : readReg r (advance n s) = readReg r s := rfl

@[simp] theorem readReg_writeReg_self (r : Fin 8) (v : Byte) (s : State) : readReg r (writeReg r v s) = v := by
  rw [readReg_writeReg, if_pos rfl]

/-- Settles O57: PRN reads, past the advance, the byte LDI wrote. -/
theorem ldiThenPrnEmitsTheImmediate : Obligations.LdiThenPrnEmitsTheImmediate := by
  intro a b s ha
  have hread : readReg ⟨a.toNat, ha⟩ (advance 3 (writeReg ⟨a.toNat, ha⟩ b s)) = b := by
    rw [readReg_advance, readReg_writeReg_self]
  refine ⟨_, _, exec_ldi_ok b ha s, exec_prn_ok ha _, ?_, rfl⟩
  rw [hread]
  rfl

end Sys2Proof.Machine

/-! # Proofs of the ALU and flags family (42_alu_and_flags.md): ADD, MUL and CMP

The ALU's two operations are the byte's own sum and product (`alu_add_eq`, `alu_mul_eq`), so its laws are those of
`BitVec`. The three instructions share the check of their two operands (`exec_twoRegisters_trap`), and ADD and MUL share
their completion (`settle_aluHandler`). -/

namespace Sys2Proof.Machine

variable {s : State} {a b : Byte}

/-! ## The ALU -/

/-- The exact sum taken modulo 256 is the sum of bytes (rule R120). -/
theorem alu_add_eq (p q : Byte) : alu .add p q = .ok (p + q) := by
  rw [alu_add, ← BitVec.toNat_add, BitVec.ofNat_toNat, BitVec.setWidth_eq]

/-- The exact product taken modulo 256 is the product of bytes (rule R120). -/
theorem alu_mul_eq (p q : Byte) : alu .mul p q = .ok (p * q) := by
  rw [alu_mul, ← BitVec.toNat_mul, BitVec.ofNat_toNat, BitVec.setWidth_eq]

theorem alu_unsupported {f : AluSelect} (hadd : f ≠ .add) (hmul : f ≠ .mul) (p q : Byte) :
    alu f p q = .error (.unsupportedAluOperation f) := by
  cases f with
  | add => exact absurd rfl hadd
  | mul => exact absurd rfl hmul
  | other code => rfl

/-- Settles O35. -/
theorem aluComputesModulo256 : Obligations.AluComputesModulo256 :=
  fun p q => ⟨⟨p + q, alu_add_eq p q, BitVec.toNat_add p q⟩, ⟨p * q, alu_mul_eq p q, BitVec.toNat_mul p q⟩,
    fun _ hadd hmul => alu_unsupported hadd hmul p q⟩

/-- Settles O36: each law of the ALU is the law of bytes. -/
theorem aluLaws : Obligations.AluLaws := by
  intro p q r
  simp only [alu_add_eq, alu_mul_eq, Except.bind]
  refine ⟨?_, ?_, ?_, ?_, ?_⟩
  · rw [BitVec.add_comm]
  · rw [BitVec.mul_comm]
  · rw [BitVec.add_assoc]
  · rw [BitVec.mul_assoc]
  · rw [BitVec.mul_add]

/-! ## Instructions with two register operands -/

theorem firstBadRegister_cons_of_lt (operands : List Byte) (ha : a.toNat < 8) :
    firstBadRegister (a :: operands) = firstBadRegister operands :=
  List.find?_cons_of_neg (by simpa using ha)

/-- Operand A is checked before operand B, and the first bad one ends the instruction (rules R62, R205). -/
theorem exec_twoRegisters_trap {i : Instr} (hi : i.regOperands = [a, b]) (s : State) :
    (8 ≤ a.toNat → exec i s = .next (raiseError (.invalidRegister a) s)) ∧
    (a.toNat < 8 → 8 ≤ b.toNat → exec i s = .next (raiseError (.invalidRegister b) s)) := by
  constructor
  · intro ha
    exact exec_firstBadRegister (by rw [hi, firstBadRegister_cons_of_ge [b] ha])
  · intro ha hb
    exact exec_firstBadRegister (by rw [hi, firstBadRegister_cons_of_lt [b] ha, firstBadRegister_cons_of_ge [] hb])

/-- Where both operands name registers, ADD and MUL write what the ALU answers to register A and advance (rules R121,
R122). -/
theorem settle_aluHandler {f : AluSelect} {v : Byte} (ha : a.toNat < 8) (hb : b.toNat < 8)
    (h : alu f (readReg ⟨a.toNat, ha⟩ s) (readReg ⟨b.toNat, hb⟩ s) = .ok v) :
    settle s (aluHandler f a b s) = .next (advance 3 (writeReg ⟨a.toNat, ha⟩ v s)) := by
  rw [aluHandler_ok ha hb, h]
  rfl

/-- Settles O24. -/
theorem addResult : Obligations.AddResult :=
  fun _ _ s => ⟨rfl, fun ha hb => ⟨_, BitVec.toNat_add _ _, settle_aluHandler ha hb (alu_add_eq _ _)⟩,
    exec_twoRegisters_trap rfl s⟩

/-- Settles O25. -/
theorem mulResult : Obligations.MulResult :=
  fun _ _ s => ⟨rfl, fun ha hb => ⟨_, BitVec.toNat_mul _ _, settle_aluHandler ha hb (alu_mul_eq _ _)⟩,
    exec_twoRegisters_trap rfl s⟩

/-! ## The flags of a comparison -/

/-- Bytes are equal where their unsigned values are, so all three flags compare the values (rule R124). -/
theorem compareFlags_eq (p q : Byte) :
    compareFlags p q = ⟨decide (p.toNat = q.toNat), decide (p.toNat > q.toNat), decide (p.toNat < q.toNat)⟩ := by
  simp only [compareFlags, BitVec.toNat_inj]

theorem compareFlags_of_eq {p q : Byte} (h : p.toNat = q.toNat) : compareFlags p q = ⟨true, false, false⟩ := by
  simp [compareFlags_eq, h]

theorem compareFlags_of_gt {p q : Byte} (h : p.toNat > q.toNat) : compareFlags p q = ⟨false, true, false⟩ := by
  simp [compareFlags_eq, h, h.ne', h.le]

theorem compareFlags_of_lt {p q : Byte} (h : p.toNat < q.toNat) : compareFlags p q = ⟨false, false, true⟩ := by
  simp [compareFlags_eq, h, h.ne, h.le]

/-- Settles O38: the packed view is computed from the one flag that is set. -/
theorem comparisonSetsExactlyOneFlag : Obligations.ComparisonSetsExactlyOneFlag := by
  refine fun p q => ⟨fun h => ?_, fun h => ?_, fun h => ?_⟩
  · rw [compareFlags_of_eq h]
    exact ⟨rfl, rfl⟩
  · rw [compareFlags_of_gt h]
    exact ⟨rfl, rfl⟩
  · rw [compareFlags_of_lt h]
    exact ⟨rfl, rfl⟩

/-- Settles O26: what CMP writes is `compareFlags`, and each of its flags is one comparison of the unsigned values. -/
theorem cmpResult : Obligations.CmpResult := by
  refine fun a b s => ⟨rfl, fun ha hb => ?_, exec_twoRegisters_trap rfl s⟩
  have hok := exec_cmp_ok ha hb s
  rw [compareFlags_eq] at hok
  exact ⟨_, decide_eq_true_iff, decide_eq_true_iff, decide_eq_true_iff, hok⟩

/-- Settles O39, by the cases of `exec_next`: every case but CMP leaves the flags by computation. -/
theorem onlyCmpWritesTheFlags : Obligations.OnlyCmpWritesTheFlags := by
  intro i s t hcmp h
  cases exec_next h with
  | @cmp a b ha hb => exact absurd rfl (hcmp a b)
  | _ => rfl

end Sys2Proof.Machine

/-! # Proofs of the stack family (43_stack.md): PUSH and POP

PUSH's completion is `exec_push_ok`; POP's, and the trap of each at its end of the stack, are said once here.
`memRead_pushed` is the memory of any completed push. -/

namespace Sys2Proof.Machine

variable {s t : State} {a : Byte}

/-! ## PUSH -/

/-- PUSH of a register at sp 0 forms the address -1 and faults (rules R141, R143). -/
theorem exec_push_zero (ha : a.toNat < 8) (h : s.sp = 0) :
    exec (.push a) s = .next (raiseError (.outOfBounds (-1)) s) := by
  simp only [exec, execPush, reg_ok ha, push_zero h, bind, Except.bind]
  rfl

/-- After a push the push address reads the pushed byte and every other address what it read before (rule R141). -/
theorem memRead_pushed {v : Byte} (h0 : 1 ≤ s.sp) (h1 : s.sp ≤ 256) (hmem : t.mem = (storeByte (s.sp - 1) v s).mem)
    (addr : Int) : memRead addr t = if addr = pushAddr s then .ok v else memRead addr s := by
  rw [memRead_congr hmem, memRead_storeByte (by omega), pushAddr_eq h0]

/-- Settles O27. -/
theorem pushResult : Obligations.PushResult :=
  fun _ _ =>
    ⟨rfl, fun ha h0 h1 => ⟨_, exec_push_ok ha h0 h1, rfl, rfl, memRead_pushed h0 h1 rfl⟩,
      fun ha => exec_firstBadRegister (firstBadRegister_cons_of_ge [] ha), exec_push_zero⟩

/-! ## POP -/

/-- POP into a register with a byte left on the stack (rule R144). -/
theorem exec_pop_ok (ha : a.toNat < 8) (h : s.sp ≤ 255) :
    exec (.pop a) s =
      .next (advance 2 (writeReg ⟨a.toNat, ha⟩ (Memory.read s.mem s.sp) (setSp (s.sp + 1) s))) := by
  simp only [exec, execPop, reg_ok ha, pop_ok h, bind, Except.bind]
  rfl

/-- POP into a register with sp past the last byte of memory faults at sp (rules R142, R144). -/
theorem exec_pop_outOfBounds (ha : a.toNat < 8) (h : 256 ≤ s.sp) :
    exec (.pop a) s = .next (raiseError (.outOfBounds s.sp) s) := by
  simp only [exec, execPop, reg_ok ha, pop_error h, bind, Except.bind]
  rfl

/-- Settles O28. -/
theorem popResult : Obligations.PopResult := by
  refine fun a s => ⟨rfl, fun ha h => ⟨_, memRead_ok h s, exec_pop_ok ha h⟩,
    fun ha => exec_firstBadRegister (firstBadRegister_cons_of_ge [] ha), fun ha h => ?_⟩
  have htrap := exec_pop_outOfBounds ha h.ge
  rw [h] at htrap
  exact htrap

/-! ## PUSH, then POP -/

/-- Settles O54: POP reads at the lowered sp the byte PUSH stored there, and writes it back to the register it came
from. -/
theorem pushThenPopRestoresRegisterAndSp : Obligations.PushThenPopRestoresRegisterAndSp := by
  intro a s ha h0 h1
  have hpop : s.sp - 1 ≤ 255 := by omega
  refine ⟨_, _, exec_push_ok ha h0 h1, exec_pop_ok ha hpop, ?_, Nat.sub_add_cancel h0, rfl⟩
  calc s.x.set a.toNat (Memory.read (Memory.write s.mem (s.sp - 1) s.x[a.toNat]) (s.sp - 1))
    _ = s.x.set a.toNat s.x[a.toNat] := by rw [Memory.read_write, if_pos rfl]
    _ = s.x := Vector.set_getElem_self ha

end Sys2Proof.Machine

/-! # Proofs of the control transfer family (44_control_transfer.md): CALL, RET, JMP, JEQ and JNE

CALL's completion is `exec_call_ok`; what RET, JMP and the two branches answer is said once here. JEQ and JNE share
`branchHandler`, whose two answers (`branchHandler_taken`, `branchHandler_notTaken`) give the four cases by E alone. -/

namespace Sys2Proof.Machine

variable {s : State} {a : Byte}

/-! ## CALL -/

/-- Where the fetch of the CALL succeeded, its return address fits a byte (rule R160). -/
theorem returnAddr_toNat (h : s.pc ≤ 253) : (returnAddr s).toNat = s.pc + 2 := by
  rw [returnAddr, BitVec.toNat_ofNat, Nat.mod_eq_of_lt (by omega)]

/-- CALL through a register at sp 0 forms the address -1 and faults (rules R141, R160). -/
theorem exec_call_zero (ha : a.toNat < 8) (h : s.sp = 0) :
    exec (.call a) s = .next (raiseError (.outOfBounds (-1)) s) := by
  simp only [exec, execCall, reg_ok ha, push_zero h, bind, Except.bind]
  rfl

/-- Settles O29: the byte stored is `returnAddr`, and `memRead_pushed` is the memory of the answer. -/
theorem callResult : Obligations.CallResult :=
  fun _ _ =>
    ⟨rfl, fun ha hpc h0 h1 =>
        ⟨_, _, returnAddr_toNat hpc, exec_call_ok ha h0 h1, rfl, rfl, memRead_pushed h0 h1 rfl⟩,
      fun ha => exec_firstBadRegister (firstBadRegister_cons_of_ge [] ha), exec_call_zero⟩

/-! ## RET -/

/-- RET with a byte left on the stack jumps to it (rule R161). -/
theorem exec_ret_ok (h : s.sp ≤ 255) :
    exec .ret s = .next (jumpTo (Memory.read s.mem s.sp) (setSp (s.sp + 1) s)) := by
  simp only [exec, execRet, pop_ok h, bind, Except.bind]
  rfl

/-- RET with sp past the last byte of memory faults at sp (rules R142, R161). -/
theorem exec_ret_outOfBounds (h : 256 ≤ s.sp) : exec .ret s = .next (raiseError (.outOfBounds s.sp) s) := by
  simp only [exec, execRet, pop_error h, bind, Except.bind]
  rfl

/-- Settles O30. -/
theorem retResult : Obligations.RetResult := by
  refine fun s => ⟨rfl, fun h => ⟨_, memRead_ok h s, exec_ret_ok h⟩, fun h => ?_⟩
  have htrap := exec_ret_outOfBounds h.ge
  rw [h] at htrap
  exact htrap

/-! ## CALL, then RET -/

/-- Settles O55: RET reads at the lowered sp the return address CALL stored there. -/
theorem callThenRetResumesAfterTheCall : Obligations.CallThenRetResumesAfterTheCall := by
  intro a s ha hpc h0 h1
  have hret : s.sp - 1 ≤ 255 := by omega
  refine ⟨_, _, exec_call_ok ha h0 h1, exec_ret_ok hret, ?_, Nat.sub_add_cancel h0, rfl⟩
  calc (Memory.read (Memory.write s.mem (s.sp - 1) (returnAddr s)) (s.sp - 1)).toNat
    _ = (returnAddr s).toNat := by rw [Memory.read_write, if_pos rfl]
    _ = s.pc + 2 := returnAddr_toNat hpc

/-! ## JMP -/

/-- JMP through a register (rule R162). -/
theorem exec_jmp_ok (ha : a.toNat < 8) (s : State) :
    exec (.jmp a) s = .next (jumpTo (readReg ⟨a.toNat, ha⟩ s) s) := by
  simp only [exec, execJmp, reg_ok ha]
  rfl

/-- Settles O31. -/
theorem jmpResult : Obligations.JmpResult :=
  fun _ s =>
    ⟨rfl, fun ha => exec_jmp_ok ha s, fun ha => exec_firstBadRegister (firstBadRegister_cons_of_ge [] ha)⟩

/-! ## JEQ and JNE -/

/-- A branch to a register that is taken jumps to it (rules R163, R164). -/
theorem branchHandler_taken (ha : a.toNat < 8) (s : State) :
    branchHandler true a s = .ok (jumpTo (readReg ⟨a.toNat, ha⟩ s) s) := by
  simp only [branchHandler, reg_ok ha]
  rfl

/-- A branch to a register that is not taken falls through (rules R163, R164). -/
theorem branchHandler_notTaken (ha : a.toNat < 8) (s : State) : branchHandler false a s = .ok (advance 2 s) := by
  simp only [branchHandler, reg_ok ha]
  rfl

theorem exec_jeq_taken (ha : a.toNat < 8) (hE : s.fl.E = true) :
    exec (.jeq a) s = .next (jumpTo (readReg ⟨a.toNat, ha⟩ s) s) := by
  rw [exec, execJeq, hE, branchHandler_taken ha, settle_ok]

theorem exec_jeq_notTaken (ha : a.toNat < 8) (hE : s.fl.E = false) : exec (.jeq a) s = .next (advance 2 s) := by
  rw [exec, execJeq, hE, branchHandler_notTaken ha, settle_ok]

theorem exec_jne_taken (ha : a.toNat < 8) (hE : s.fl.E = false) :
    exec (.jne a) s = .next (jumpTo (readReg ⟨a.toNat, ha⟩ s) s) := by
  rw [exec, execJne, hE, Bool.not_false, branchHandler_taken ha, settle_ok]

theorem exec_jne_notTaken (ha : a.toNat < 8) (hE : s.fl.E = true) : exec (.jne a) s = .next (advance 2 s) := by
  rw [exec, execJne, hE, Bool.not_true, branchHandler_notTaken ha, settle_ok]

/-- Settles O32. -/
theorem jeqResult : Obligations.JeqResult :=
  fun _ _ =>
    ⟨rfl, exec_jeq_taken, exec_jeq_notTaken, fun ha => exec_firstBadRegister (firstBadRegister_cons_of_ge [] ha)⟩

/-- Settles O33. -/
theorem jneResult : Obligations.JneResult :=
  fun _ _ =>
    ⟨rfl, exec_jne_taken, exec_jne_notTaken, fun ha => exec_firstBadRegister (firstBadRegister_cons_of_ge [] ha)⟩

/-! ## CMP, then a branch -/

/-- Settles O56: the E flag CMP leaves is the equality of the two registers, and each branch tests it alone. -/
theorem cmpDecidesTheBranches : Obligations.CmpDecidesTheBranches := by
  refine fun a b r s ha hb hr => ⟨_, exec_cmp_ok ha hb s, fun heq => ?_, fun hne => ?_⟩
  · have hE : (compareFlags s.x[a.toNat] s.x[b.toNat]).E = true := decide_eq_true heq
    exact ⟨exec_jeq_taken hr hE, exec_jne_notTaken hr hE⟩
  · have hE : (compareFlags s.x[a.toNat] s.x[b.toNat]).E = false := decide_eq_false hne
    exact ⟨exec_jne_taken hr hE, exec_jeq_notTaken hr hE⟩

end Sys2Proof.Machine

/-! # Proofs of the system family (45_system.md): HLT

HLT has no operand, so its arm of the dispatch is the whole of it: every state is answered by `haltRun`. -/

namespace Sys2Proof.Machine

/-- HLT completes from every state (rule R180). -/
theorem exec_hlt (s : State) : exec .hlt s = .next (haltRun s) := rfl

/-- Settles O34: `haltRun` is the update of the run state alone. -/
theorem hltResult : Obligations.HltResult :=
  fun s => ⟨rfl, exec_hlt s⟩

end Sys2Proof.Machine

/-! # Proofs of the exceptions family (60_exceptions.md): which error a step reports, and the exit code

`exec_completes` says when an instruction raises nothing and `exec_stackError` what it raises once its operands are
good. `firstError_cases` reads `firstError` as the fetch's error or the errors of the fetched instruction, in order. -/

namespace Sys2Proof.Machine

variable {s t : State} {op a b : Byte} {operands : List Byte} {i : Instr} {e : CoreError}

/-! ## Completion -/

/-- Where no row of the table of R202 applies, the instruction completes: it keeps the record, and the run state too
unless it is HLT. -/
theorem exec_completes (hregs : ∀ k ∈ i.regOperands, k.toNat < 8)
    (hpush : (∃ a, i = .push a ∨ i = .call a) → 1 ≤ s.sp ∧ s.sp ≤ 256)
    (hpop : (i = .ret ∨ ∃ a, i = .pop a) → s.sp ≤ 255) :
    ∃ t, exec i s = .next t ∧ t.err = s.err ∧ t.run = if i = .hlt then .halted else s.run := by
  obtain ⟨t, h⟩ := exec_total i s
  refine ⟨t, h, ?_⟩
  cases exec_next h with
  | badRegister hi hk => exact absurd (hregs _ hi) (Nat.not_lt.mpr hk)
  | pushAtZero hi h0 =>
    obtain ⟨hpos, -⟩ := hpush hi
    omega
  | pushAbove hi hgt =>
    obtain ⟨-, hle⟩ := hpush hi
    omega
  | popAtTop hi hge =>
    have hle := hpop hi
    omega
  | _ => exact ⟨rfl, rfl⟩

/-- Settles O58. -/
theorem everyInstructionCompletesWhereNoErrorApplies : Obligations.EveryInstructionCompletesWhereNoErrorApplies :=
  fun _ _ => exec_completes

/-! ## The stack error of an instruction -/

section StackOpcodes

variable (h : encode i = op :: operands)
include h

theorem opcode_pushes_iff : (op = 0x45 ∨ op = 0x50) ↔ ∃ a, i = .push a ∨ i = .call a := by
  cases i <;> cases h
  case push a => exact iff_of_true (.inl rfl) ⟨a, .inl rfl⟩
  case call a => exact iff_of_true (.inr rfl) ⟨a, .inr rfl⟩
  all_goals exact iff_of_false (by decide) (by simp)

theorem opcode_pops_iff : (op = 0x46 ∨ op = 0x11) ↔ i = .ret ∨ ∃ a, i = .pop a := by
  cases i <;> cases h
  case ret => exact iff_of_true (.inr rfl) (.inl rfl)
  case pop a => exact iff_of_true (.inl rfl) (.inr ⟨a, rfl⟩)
  all_goals exact iff_of_false (by decide) (by simp)

/-- A stack error is that of a push at sp 0, or of a pop past the last byte of memory (rule R202). -/
theorem stackError_eq_some {sp : Nat} (he : stackError op sp = some e) :
    ((∃ a, i = .push a ∨ i = .call a) ∧ sp = 0 ∧ e = .outOfBounds (-1)) ∨
      ((i = .ret ∨ ∃ a, i = .pop a) ∧ 256 ≤ sp ∧ e = .outOfBounds sp) := by
  rw [← opcode_pushes_iff h, ← opcode_pops_iff h]
  unfold stackError at he
  split_ifs at he with hpush hpop <;> cases he
  · exact .inl ⟨hpush.1, hpush.2, rfl⟩
  · obtain ⟨hop, rfl⟩ := hpop
    exact .inr ⟨hop, le_rfl, rfl⟩

/-- Without a stack error the instruction, if it pushes, is not at sp 0 and, if it pops, not at sp 256 (rule R202). -/
theorem stackError_eq_none {sp : Nat} (he : stackError op sp = none) :
    ((∃ a, i = .push a ∨ i = .call a) → sp ≠ 0) ∧ ((i = .ret ∨ ∃ a, i = .pop a) → sp ≠ 256) := by
  rw [← opcode_pushes_iff h, ← opcode_pops_iff h]
  unfold stackError at he
  split_ifs at he with hpush hpop
  exact ⟨fun hi h0 => hpush ⟨hi, h0⟩, fun hi htop => hpop ⟨hi, htop⟩⟩

/-- An instruction whose register operands are good raises its stack error (rule R205, item 5). -/
theorem exec_stackError (hregs : ∀ k ∈ i.regOperands, k.toNat < 8) (he : stackError op s.sp = some e) :
    exec i s = .next (raiseError e s) := by
  rcases stackError_eq_some h he with ⟨⟨a, rfl | rfl⟩, h0, rfl⟩ | ⟨rfl | ⟨a, rfl⟩, htop, rfl⟩
  · exact exec_push_zero (hregs a List.mem_cons_self) h0
  · exact exec_call_zero (hregs a List.mem_cons_self) h0
  · exact exec_ret_outOfBounds htop
  · exact exec_pop_outOfBounds (hregs a List.mem_cons_self) htop

/-- An instruction with good register operands and no stack error completes. -/
theorem exec_completes_of_stackError_eq_none (hregs : ∀ k ∈ i.regOperands, k.toNat < 8) (hsp : s.sp ≤ 256)
    (he : stackError op s.sp = none) :
    ∃ t, exec i s = .next t ∧ t.err = s.err ∧ t.run = if i = .hlt then .halted else s.run := by
  obtain ⟨hpush, hpop⟩ := stackError_eq_none h he
  exact exec_completes hregs (fun hi => ⟨Nat.pos_of_ne_zero (hpush hi), hsp⟩)
    fun hi => Nat.le_of_lt_succ (lt_of_le_of_ne hsp (hpop hi))

end StackOpcodes

/-! ## The first error of a step -/

theorem lt_of_firstBadRegister_eq_none (h : firstBadRegister operands = none) : ∀ k ∈ operands, k.toNat < 8 := by
  simpa [firstBadRegister] using h

/-- The operand check of `firstError` is the check the instructions make (rule R62). -/
theorem find_not_namesRegister (operands : List Byte) :
    operands.find? (fun k => !namesRegister k) = firstBadRegister operands := by
  simp only [firstBadRegister, namesRegister, ← decide_not, Nat.not_lt, Config.nRegs]

/-- The operands checked by opcode are the register operands of the decoded instruction (rule R61). -/
theorem checkedOperands_of_decode (h : decode op a b = .ok i) : checkedOperands op a b = i.regOperands := by
  obtain ⟨rest, henc⟩ := decode_eq_ok_iff.mp h
  cases i <;> cases henc <;> rfl

/-- Items 2, 4 and 5 of rule R205 for a decoded instruction; HLT has neither operands to check nor a stack access. -/
theorem firstError_of_decode (hpc : s.pc ≤ 253)
    (h : decode (Memory.read s.mem s.pc) (Memory.read s.mem (s.pc + 1)) (Memory.read s.mem (s.pc + 2)) = .ok i)
    (hop : Memory.read s.mem s.pc ∈ opcodeMap) :
    firstError s = ((firstBadRegister i.regOperands).map .invalidRegister).or
      (stackError (Memory.read s.mem s.pc) s.sp) := by
  rw [firstError, if_neg (by omega)]
  simp only [checkedOperands_of_decode h, find_not_namesRegister, hop, not_true_eq_false, if_false]
  split_ifs with hhlt
  · rw [hhlt] at h ⊢
    cases h
    rfl
  · cases firstBadRegister i.regOperands <;> rfl

/-- Items 1 and 3 of rule R205 are what fetch and decode answer; the rest are the errors of the decoded instruction. -/
theorem firstError_cases (hpc : s.pc ≤ 256) :
    (∃ e, fetchDecode s = .error e ∧ firstError s = some e) ∨
      ∃ i op operands, fetchDecode s = .ok i ∧ encode i = op :: operands ∧
        firstError s = ((firstBadRegister i.regOperands).map .invalidRegister).or (stackError op s.sp) := by
  rcases Nat.lt_or_ge s.pc 254 with hlt | hge
  · have hfetch := fetchDecode_ok (s := s) (by omega)
    by_cases hop : Memory.read s.mem s.pc ∈ opcodeMap
    · obtain ⟨i, hi⟩ := decode_of_mem_opcodeMap (Memory.read s.mem (s.pc + 1)) (Memory.read s.mem (s.pc + 2)) hop
      obtain ⟨operands, henc⟩ := encode_eq_cons_of_decode hi
      exact .inr ⟨i, _, operands, hfetch.trans (lookup_ok hi), henc, firstError_of_decode (by omega) hi hop⟩
    · have hhlt : Memory.read s.mem s.pc ≠ 0x01 := fun h => hop (h ▸ by decide)
      refine .inl ⟨_, hfetch.trans (lookup_error _ _ hop), ?_⟩
      rw [firstError, if_neg (by omega)]
      exact (if_neg hhlt).trans (if_pos hop)
  · exact .inl ⟨_, fetchDecode_error hge hpc, if_pos hge⟩

/-- The step at a first error enters it from the state it began in (rules R204, R205). -/
theorem step_of_firstError_eq_some (hr : s.run = .running) (hpc : s.pc ≤ 256) (h : firstError s = some e) :
    step s = .next (raiseError e s) := by
  rcases firstError_cases hpc with ⟨e', hf, hfirst⟩ | ⟨i, op, operands, hf, henc, hfirst⟩
  · cases hfirst.symm.trans h
    exact step_running_error hr hf
  · rw [step_running_ok hr hf]
    rw [hfirst] at h
    cases hreg : firstBadRegister i.regOperands with
    | some k =>
      rw [hreg] at h
      cases h
      exact exec_firstBadRegister hreg
    | none =>
      rw [hreg] at h
      exact exec_stackError henc (lt_of_firstBadRegister_eq_none hreg) h

/-- A step with no error to report completes without one. -/
theorem step_of_firstError_eq_none (hr : s.run = .running) (hpc : s.pc ≤ 256) (hsp : s.sp ≤ 256)
    (h : firstError s = none) : ∃ t, step s = .next t ∧ t.run ≠ .error ∧ t.err = s.err := by
  rcases firstError_cases hpc with ⟨e, -, hfirst⟩ | ⟨i, op, operands, hf, henc, hfirst⟩
  · cases hfirst.symm.trans h
  · obtain ⟨hreg, hstack⟩ := Option.or_eq_none_iff.mp (hfirst.symm.trans h)
    have hregs := lt_of_firstBadRegister_eq_none (Option.map_eq_none_iff.mp hreg)
    obtain ⟨t, hx, herr, hrun⟩ := exec_completes_of_stackError_eq_none henc hregs hsp hstack
    refine ⟨t, (step_running_ok hr hf).trans hx, ?_, herr⟩
    rw [hrun, hr]
    split_ifs <;> decide

/-- Settles O13: `step_of_firstError_eq_some` where there is an error, `step_of_firstError_eq_none` where not. -/
theorem stepReportsTheFirstErrorInOrder : Obligations.StepReportsTheFirstErrorInOrder := by
  intro s hr hpc hsp
  cases h : firstError s with
  | some e =>
    refine ⟨_, step_of_firstError_eq_some hr hpc h, fun e' he => ?_, nofun⟩
    cases he
    rfl
  | none =>
    obtain ⟨t, hstep, hend⟩ := step_of_firstError_eq_none hr hpc hsp h
    exact ⟨t, hstep, nofun, fun _ => hend⟩

/-! ## No step raises UnsupportedAluOperation -/

theorem errorKind_of_possible (h : e.possible = true) : errorKind e ≠ .unsupportedAluOperation := by
  cases e with
  | unsupportedAluOperation f => cases h
  | _ => nofun

/-- Past address 256, which no reachable pc is, the fetch fails at pc itself. -/
theorem fetchDecode_error_above (h : 256 < s.pc) : fetchDecode s = .error (.outOfBounds s.pc) := by
  have hout : ¬ inBounds (s.pc : Int) := not_inBounds (.inr (by omega))
  simp only [fetchDecode, fetch, memRead_error hout, bind, Except.bind]

theorem errorKind_of_fetchDecode_error (h : fetchDecode s = .error e) : errorKind e ≠ .unsupportedAluOperation := by
  rcases Nat.lt_or_ge 256 s.pc with hgt | hle
  · cases (fetchDecode_error_above hgt).symm.trans h
    nofun
  · exact errorKind_of_possible (possible_of_fetchDecode_error hle h)

/-- An instruction keeps the record or fills it with an error of another kind: the errors of `exec_next` are all of
operands and of stack accesses. -/
theorem exec_err (h : exec i s = .next t) :
    t.err = s.err ∨ ∃ e, t.err = some e ∧ errorKind e ≠ .unsupportedAluOperation := by
  cases exec_next h with
  | badRegister | pushAtZero | pushAbove | popAtTop => exact .inr ⟨_, rfl, nofun⟩
  | _ => exact .inl rfl

theorem step_err (h : step s = .next t) :
    t.err = s.err ∨ ∃ e, t.err = some e ∧ errorKind e ≠ .unsupportedAluOperation := by
  obtain ⟨-, ⟨i, -, hx⟩ | ⟨e, hf, rfl⟩⟩ := step_next h
  · exact exec_err hx
  · exact .inr ⟨e, rfl, errorKind_of_fetchDecode_error hf⟩

/-- Settles O37. -/
theorem noStepRaisesUnsupportedAluOperation : Obligations.NoStepRaisesUnsupportedAluOperation := by
  intro s t f hs h hf
  rcases step_err h with hkeep | ⟨e, he, hkind⟩
  · cases hf.symm.trans (hkeep.trans hs)
  · cases hf.symm.trans he
    exact hkind rfl

/-! ## The exit code -/

theorem exitCode_running (h : s.run = .running) : exitCode s = none := by
  simp only [exitCode, h]

theorem exitCode_halted (h : s.run = .halted) : exitCode s = some 0 := by
  simp only [exitCode, h]

theorem exitCode_error (h : s.run = .error) (he : s.err = some e) :
    exitCode s = some (errorExitCode (errorKind e)) := by
  simp only [exitCode, h, he, Option.map_some]

/-- Settles O53: after an error the code is that of the recorded error's kind. -/
theorem exitCodeOfTheRun : Obligations.ExitCodeOfTheRun :=
  fun _ => ⟨exitCode_running, exitCode_halted, fun _ => exitCode_error, fun _ => exitCode_error,
    fun _ => exitCode_error⟩

end Sys2Proof.Machine

/-! # Proofs of the reset family (70_reset_and_hazards.md): loading a program

`loadFrom_cons_ok` and `loadFrom_cons_error` are the two answers of the load at one byte, by its address alone. A load
that completes is so a run of `storeByte`, and what each store keeps the load keeps (`loadFrom_preserves`). -/

namespace Sys2Proof.Machine

variable {s t : State} {addr : Nat} {v : Byte} {bytes rest : List Byte}

/-! ## One byte of a load -/

theorem loadFrom_cons_ok (h : addr ≤ 255) :
    loadFrom addr (v :: rest) s = loadFrom (addr + 1) rest (storeByte addr v s) := by
  simp only [loadFrom, memWrite_ok h, bind, Except.bind]

/-- The first byte past memory ends the load with its own address (rule R234). -/
theorem loadFrom_cons_error (h : 256 ≤ addr) : loadFrom addr (v :: rest) s = .error (.outOfBounds addr) := by
  have hout : ¬ inBounds (addr : Int) := not_inBounds (.inr (by omega))
  simp only [loadFrom, memWrite_error hout, bind, Except.bind]

theorem loadFrom_cons_eq_ok (h : loadFrom addr (v :: rest) s = .ok t) :
    addr ≤ 255 ∧ loadFrom (addr + 1) rest (storeByte addr v s) = .ok t := by
  rcases Nat.lt_or_ge addr 256 with hlt | hge
  · exact ⟨by omega, (loadFrom_cons_ok (by omega)).symm.trans h⟩
  · cases (loadFrom_cons_error hge).symm.trans h

/-! ## When a load completes -/

theorem loadFrom_completes (h : addr + bytes.length ≤ 256) : ∃ t, loadFrom addr bytes s = .ok t := by
  induction bytes generalizing addr s with
  | nil => exact ⟨s, rfl⟩
  | cons v rest ih =>
    rw [List.length_cons] at h
    rw [loadFrom_cons_ok (by omega)]
    exact ih (by omega)

/-- A load that begins in memory and runs past its end fails at the first address outside (rule R234). -/
theorem loadFrom_error (haddr : addr ≤ 256) (h : 257 ≤ addr + bytes.length) :
    loadFrom addr bytes s = .error (.outOfBounds 256) := by
  induction bytes generalizing addr s with
  | nil =>
    rw [List.length_nil] at h
    omega
  | cons v rest ih =>
    rw [List.length_cons] at h
    rcases haddr.lt_or_eq with hlt | rfl
    · rw [loadFrom_cons_ok (by omega)]
      exact ih hlt (by omega)
    · exact loadFrom_cons_error le_rfl

/-! ## What a completed load gives -/

theorem loadFrom_preserves {P : State → Prop} (hP : ∀ a v s, a ≤ 255 → P s → P (storeByte a v s)) (hs : P s)
    (h : loadFrom addr bytes s = .ok t) : P t := by
  induction bytes generalizing addr s with
  | nil =>
    cases h
    exact hs
  | cons v rest ih =>
    obtain ⟨haddr, hrest⟩ := loadFrom_cons_eq_ok h
    exact ih (hP addr v s haddr hs) hrest

/-- A load changes nothing but memory (rule R233). -/
theorem loadFrom_frame (h : loadFrom addr bytes s = .ok t) : t = { s with mem := t.mem } :=
  loadFrom_preserves (P := fun u => u = { s with mem := u.mem })
    (fun a v _ _ hu => congrArg (storeByte a v) hu) rfl h

theorem loadFrom_inv (hs : s.Inv) (h : loadFrom addr bytes s = .ok t) : t.Inv :=
  loadFrom_preserves (fun _ v _ ha => storeByte_inv v (Nat.lt_succ_of_le ha)) hs h

theorem read_loadFrom_below {n : Nat} (hn : n < addr) (h : loadFrom addr bytes s = .ok t) :
    Memory.read t.mem n = Memory.read s.mem n := by
  induction bytes generalizing addr s with
  | nil =>
    cases h
    rfl
  | cons v rest ih =>
    obtain ⟨-, hrest⟩ := loadFrom_cons_eq_ok h
    rw [ih (by omega) hrest, storeByte_mem, Memory.read_write, if_neg hn.ne]

/-- Byte `k` of a loaded program lies `k` past its first address, and past its end memory reads as before. The later
bytes leave an earlier one as it was stored, by `read_loadFrom_below`. -/
theorem read_loadFrom (k : Nat) (h : loadFrom addr bytes s = .ok t) :
    Memory.read t.mem (addr + k) = bytes[k]?.getD (Memory.read s.mem (addr + k)) := by
  induction bytes generalizing addr s k with
  | nil =>
    cases h
    rfl
  | cons v rest ih =>
    obtain ⟨-, hrest⟩ := loadFrom_cons_eq_ok h
    cases k with
    | zero =>
      calc Memory.read t.mem addr
        _ = Memory.read (storeByte addr v s).mem addr := read_loadFrom_below (Nat.lt_succ_self addr) hrest
        _ = v := by rw [storeByte_mem, Memory.read_write, if_pos rfl]
    | succ k =>
      have hkeep : Memory.read (storeByte addr v s).mem (addr + (k + 1)) = Memory.read s.mem (addr + (k + 1)) := by
        rw [storeByte_mem, Memory.read_write, if_neg (by omega)]
      have hread := ih k hrest
      rw [Nat.add_right_comm, Nat.add_assoc, hkeep] at hread
      rw [hread, List.getElem?_cons_succ]

/-! ## Reset, then load -/

/-- Settles O51: the load from address 0 of the reset state, whose cells all read 0. -/
theorem loadPlacesTheProgramFromAddressZero : Obligations.LoadPlacesTheProgramFromAddressZero := by
  refine fun bytes => ⟨fun hlen => ?_, fun hlen => loadFrom_error (Nat.zero_le 256) (by omega)⟩
  obtain ⟨t, ht⟩ := loadFrom_completes (addr := 0) (s := State.reset) (bytes := bytes) (by omega)
  refine ⟨t, ht, loadFrom_frame ht, fun n hn => ?_⟩
  have hread := read_loadFrom n ht
  rw [Nat.zero_add] at hread
  rw [memRead_ok hn, hread]
  rfl

/-- Settles O52: reset meets the invariant and the load keeps it. -/
theorem loadedProgramMeetsTheInvariant : Obligations.LoadedProgramMeetsTheInvariant :=
  fun _ _ => loadFrom_inv resetMeetsTheInvariant

end Sys2Proof.Machine
